-- ==== Sys2Proof/Word.lean ====
section
/-! DEFINITION. The word types of the block (00_scope.md R4: WORD_BITS = 32, FREQ_BITS = 64). -/

namespace Sys2Proof

/-- One byte on the serial line (20_memory.md R32). -/
abbrev Byte := BitVec 8

/-- A register word or a command word: 32 bits (R10, R70). -/
abbrev Word := BitVec 32

/-- An operand port or the result latch: 64 bits (R70, D4). -/
abbrev Dword := BitVec 64

end Sys2Proof
end

