-- ==== Sys2Proof/Syntax.lean ====
section
/-! DEFINITION. What the block is given: register numbers, named fields, the eighteen rows of spec/opcode_table.json as the
constructors of `Instr`, the ports that carry them and the answers of the Device Writer. -/

namespace Sys2Proof

/-- A register number 0..5 (10_state.md R10). -/
inductive Reg
  | r0 | r1 | r2 | r3 | r4 | r5
  deriving DecidableEq, Repr

/-- The 36 named fields, in the order of the field table (30_encoding.md R57). -/
inductive RegField
  | frac | int
  | mod | phase | prescaler | phaseAdjust
  | counterReset | cpThreeState | powerDown | pdPolarity | ldp | ldf | cpCurrent | doubleBuffer | rCounter | rdiv2
  | refDoubler | muxout | noiseMode
  | clockDivider | clockDividerMode | csr | chargeCancel | antiBacklashWidth | bandSelectClockMode
  | outputPower | rfOutputEnable | auxOutputPower | auxOutputEnable | auxOutputSelect | muteTillLock | vcoPowerDown
  | bandSelectClockDiv | rfDividerSelect | feedbackSelect
  | lockDetectPin
  deriving DecidableEq, Repr

/-- The prescaler mode (00_scope.md R8), and the operand `psc` of RSET INT (R71). -/
inductive Prescaler
  | low | high
  deriving DecidableEq, Repr

/-- The reference-path operand of PLAN (42_planner.md R113, R118, R119). -/
inductive RefPath
  | auto
  | manual (doubler div2 : Bool) (rCounter : BitVec 16)
  deriving DecidableEq, Repr

/-- The instructions: one constructor per row of spec/opcode_table.json. `w0` to `w5` are the six register-word formats
(R51 to R56) with their fields from low to high bits, the others the twelve operations (R72) with the operands the
operand ports carry for them (R72, R73). -/
inductive Instr
  | w0 (frac : BitVec 12) (int : BitVec 16)
  | w1 (mod phase : BitVec 12) (prescaler phaseAdjust : BitVec 1)
  | w2 (counterReset cpThreeState powerDown pdPolarity ldp ldf : BitVec 1) (cpCurrent : BitVec 4) (doubleBuffer : BitVec 1)
      (rCounter : BitVec 10) (rdiv2 refDoubler : BitVec 1) (muxout : BitVec 3) (noiseMode : BitVec 2)
  | w3 (clockDivider : BitVec 12) (clockDividerMode : BitVec 2) (csr chargeCancel antiBacklashWidth bandSelectClockMode : BitVec 1)
  | w4 (outputPower : BitVec 2) (rfOutputEnable : BitVec 1) (auxOutputPower : BitVec 2)
      (auxOutputEnable auxOutputSelect muteTillLock vcoPowerDown : BitVec 1) (bandSelectClockDiv : BitVec 8)
      (rfDividerSelect : BitVec 3) (feedbackSelect : BitVec 1)
  | w5 (lockDetectPin : BitVec 2)
  | rsdef
  | fget (offset widthm1 : BitVec 5) (word : Word)
  | fset (offset widthm1 : BitVec 5) (word : Word) (value : Dword)
  | rget (f : RegField)
  | rset (f : RegField) (psc : Prescaler) (value : Dword)
  | rword (a : Reg)
  | rser
  | pfd (ref : Dword) (doubler div2 : Bool) (rCounter : BitVec 16)
  | plan (ref target : Dword) (modulus : BitVec 16) (path : RefPath)
  | fout (ref : Dword)
  | wwrite (word : Word)
  | prog
  deriving DecidableEq, Repr

/-- What the host puts on the four input ports for one operation (R70). -/
structure Command where
  cw : Word
  opA : Dword := 0
  opB : Dword := 0
  opC : Dword := 0
  deriving DecidableEq, Repr

/-- One input to the machine: a command of the host (R70), a register word presented by itself, which is none of the twelve
operations (R50, R76; log 2), or the reset input (R170; log 18). -/
inductive Input
  | command (c : Command)
  | regWord (w : Word)
  | reset
  deriving DecidableEq, Repr

/-- The two pass-through failures of the Device Writer (43_device_writer.md R143). -/
inductive TransportError
  | busError | pinError
  deriving DecidableEq, Repr

/-- What the Device Writer answers to one word write (R140, R141). -/
inductive Answer
  | ok
  | error (e : TransportError)
  deriving DecidableEq, Repr, Inhabited

/-- Bit order inside a byte on the serial line (parameter WIRE_BIT_ORDER of R4, D27). -/
inductive BitOrder
  | msbFirst | lsbFirst
  deriving DecidableEq, Repr, Inhabited

end Sys2Proof
end

