-- ==== Sys2Proof/Machine/FieldTable.lean ====
section
/-! DEFINITION. The one table of offsets and widths (30_encoding.md R57), the register numbers and the bits that belong to
no field (10_state.md R19). -/

namespace Sys2Proof

/-- The number of a register, which is also its 3-bit address tag (10_state.md R11). -/
def Reg.number : Reg → Nat
  | .r0 => 0 | .r1 => 1 | .r2 => 2 | .r3 => 3 | .r4 => 4 | .r5 => 5

/-- The tag as the low bits of a word (R11). -/
def Reg.tag (a : Reg) : Word := BitVec.ofNat 32 a.number

/-- The register a 3-bit address selects; 6 and 7 select nothing (20_memory.md R34). -/
def Reg.ofBits (a : BitVec 3) : Option Reg :=
  [Reg.r0, .r1, .r2, .r3, .r4, .r5][a.toNat]?

/-- A field descriptor: "(register address, bit offset, bit width)" (00_scope.md R8). -/
structure Desc where
  reg : Reg
  offset : Nat
  width : Nat
  deriving DecidableEq, Repr

/-- `field(f)`: the row of the field table (R57). -/
def RegField.desc : RegField → Desc
  | .frac => ⟨.r0, 3, 12⟩
  | .int => ⟨.r0, 15, 16⟩
  | .mod => ⟨.r1, 3, 12⟩
  | .phase => ⟨.r1, 15, 12⟩
  | .prescaler => ⟨.r1, 27, 1⟩
  | .phaseAdjust => ⟨.r1, 28, 1⟩
  | .counterReset => ⟨.r2, 3, 1⟩
  | .cpThreeState => ⟨.r2, 4, 1⟩
  | .powerDown => ⟨.r2, 5, 1⟩
  | .pdPolarity => ⟨.r2, 6, 1⟩
  | .ldp => ⟨.r2, 7, 1⟩
  | .ldf => ⟨.r2, 8, 1⟩
  | .cpCurrent => ⟨.r2, 9, 4⟩
  | .doubleBuffer => ⟨.r2, 13, 1⟩
  | .rCounter => ⟨.r2, 14, 10⟩
  | .rdiv2 => ⟨.r2, 24, 1⟩
  | .refDoubler => ⟨.r2, 25, 1⟩
  | .muxout => ⟨.r2, 26, 3⟩
  | .noiseMode => ⟨.r2, 29, 2⟩
  | .clockDivider => ⟨.r3, 3, 12⟩
  | .clockDividerMode => ⟨.r3, 15, 2⟩
  | .csr => ⟨.r3, 18, 1⟩
  | .chargeCancel => ⟨.r3, 21, 1⟩
  | .antiBacklashWidth => ⟨.r3, 22, 1⟩
  | .bandSelectClockMode => ⟨.r3, 23, 1⟩
  | .outputPower => ⟨.r4, 3, 2⟩
  | .rfOutputEnable => ⟨.r4, 5, 1⟩
  | .auxOutputPower => ⟨.r4, 6, 2⟩
  | .auxOutputEnable => ⟨.r4, 8, 1⟩
  | .auxOutputSelect => ⟨.r4, 9, 1⟩
  | .muteTillLock => ⟨.r4, 10, 1⟩
  | .vcoPowerDown => ⟨.r4, 11, 1⟩
  | .bandSelectClockDiv => ⟨.r4, 12, 8⟩
  | .rfDividerSelect => ⟨.r4, 20, 3⟩
  | .feedbackSelect => ⟨.r4, 23, 1⟩
  | .lockDetectPin => ⟨.r5, 22, 2⟩

/-- The fields in table order (R57): the position of a field is its identifier `fid` (D3). -/
def RegField.all : List RegField :=
  [.frac, .int, .mod, .phase, .prescaler, .phaseAdjust, .counterReset, .cpThreeState, .powerDown, .pdPolarity, .ldp, .ldf,
   .cpCurrent, .doubleBuffer, .rCounter, .rdiv2, .refDoubler, .muxout, .noiseMode, .clockDivider, .clockDividerMode, .csr,
   .chargeCancel, .antiBacklashWidth, .bandSelectClockMode, .outputPower, .rfOutputEnable, .auxOutputPower,
   .auxOutputEnable, .auxOutputSelect, .muteTillLock, .vcoPowerDown, .bandSelectClockDiv, .rfDividerSelect,
   .feedbackSelect, .lockDetectPin]

/-- The field identifier (R57, column fid). -/
def RegField.fid (f : RegField) : BitVec 6 := BitVec.ofNat 6 (RegField.all.idxOf f)

/-- The field a 6-bit identifier names; 36 and above name none (R72). -/
def RegField.ofFid (n : BitVec 6) : Option RegField := RegField.all[n.toNat]?

/-- The bits of a register word that belong to no field (10_state.md R19). -/
def Reg.unassigned : Reg → Word
  | .r0 => 0x80000000
  | .r1 => 0xE0000000
  | .r2 => 0x80000000
  | .r3 => 0xFF1A0000
  | .r4 => 0xFF000000
  | .r5 => 0xFF3FFFF8

end Sys2Proof
end

