-- ==== Sys2Proof/WellFormed.lean ====
section
/-! DEFINITION. Which instructions the command word can express (30_encoding.md R72). Register numbers, field identifiers
and field widths are right by their types; the one check left is the prescaler operand. -/

namespace Sys2Proof

/-- `psc` may be set on an RSET of INT only (R72: "psc set on an RSET of a field other than INT" is IllegalCommand). -/
def pscAllowed : RegField → Prescaler → Bool
  | .int, _ => true
  | _, .low => true
  | _, .high => false

/-- The instruction is one the encoding can express. A generic descriptor that does not fit the word is well formed here:
FGET and FSET take it and answer BadDescriptor (40_codec.md R81). -/
def Instr.wellFormed : Instr → Bool
  | .rset f psc _ => pscAllowed f psc
  | .w0 .. | .w1 .. | .w2 .. | .w3 .. | .w4 .. | .w5 .. | .rsdef | .fget .. | .fset .. | .rget .. | .rword .. | .rser
  | .pfd .. | .plan .. | .fout .. | .wwrite .. | .prog => true

end Sys2Proof
end

