-- ==== Sys2Proof/Decode.lean ====
section
/-! DEFINITION. From bits to instructions and back: the register words W0 to W5 (30_encoding.md R50 to R56), the command
word and its operand ports (R70 to R73). Two decoders, since a register word and a command are different
inputs and the same 32 bits can be one of each (log 3). -/

namespace Sys2Proof

/-! ## The command word -/

/-- The sub-fields of the command word (R71); an unused one is zero. -/
structure CmdFields where
  opcode : BitVec 4
  fid : BitVec 6 := 0
  offset : BitVec 5 := 0
  widthm1 : BitVec 5 := 0
  zero : BitVec 8 := 0
  psc : BitVec 1 := 0
  ra : BitVec 3 := 0
  deriving DecidableEq, Repr

/-- `cw[31:28]`, `cw[27:22]`, `cw[21:17]`, `cw[16:12]`, `cw[11:4]`, `cw[3]`, `cw[2:0]` (R71). -/
def splitCw (cw : Word) : CmdFields :=
  { opcode := cw.extractLsb' 28 4, fid := cw.extractLsb' 22 6, offset := cw.extractLsb' 17 5,
    widthm1 := cw.extractLsb' 12 5, zero := cw.extractLsb' 4 8, psc := cw.extractLsb' 3 1, ra := cw.extractLsb' 0 3 }

/-- The command word with these sub-fields (R71). -/
def joinCw (f : CmdFields) : Word :=
  f.opcode ++ f.fid ++ f.offset ++ f.widthm1 ++ f.zero ++ f.psc ++ f.ra

/-- The prescaler operand `psc`: 0 = low-range, 1 = high-range (R71). -/
def pscOfBit (b : BitVec 1) : Prescaler := if b = 1 then .high else .low

def pscBit : Prescaler → BitVec 1
  | .low => 0
  | .high => 1

/-! ## The operand ports -/

/-- "Bits of opA above 31 must be zero where only opA[31:0] is used" (R72). -/
def wordOperand (opA : Dword) : Option Word :=
  if opA.extractLsb' 32 32 = 0 then some (opA.extractLsb' 0 32) else none

/-- The fields of the configuration operand opC (R73). -/
structure CfgFields where
  modulus : BitVec 16 := 0
  rCounter : BitVec 16 := 0
  doubler : BitVec 1 := 0
  div2 : BitVec 1 := 0
  manual : BitVec 1 := 0
  zero : BitVec 29 := 0
  deriving DecidableEq, Repr

/-- `opC[15:0]`, `opC[31:16]`, `opC[32]`, `opC[33]`, `opC[34]`, `opC[63:35]` (R73). -/
def splitCfg (opC : Dword) : CfgFields :=
  { modulus := opC.extractLsb' 0 16, rCounter := opC.extractLsb' 16 16, doubler := opC.extractLsb' 32 1,
    div2 := opC.extractLsb' 33 1, manual := opC.extractLsb' 34 1, zero := opC.extractLsb' 35 29 }

def joinCfg (f : CfgFields) : Dword :=
  f.zero ++ f.manual ++ f.div2 ++ f.doubler ++ f.rCounter ++ f.modulus

def bitOfBool (b : Bool) : BitVec 1 := if b then 1 else 0

def boolOfBit (b : BitVec 1) : Bool := b == 1

/-- The reference-path record of PFD: modulus, manual bit and [63:35] are zero (R73). -/
def pfdOperand (opC : Dword) : Option (Bool × Bool × BitVec 16) :=
  let f := splitCfg opC
  if f = { rCounter := f.rCounter, doubler := f.doubler, div2 := f.div2 } then
    some (boolOfBit f.doubler, boolOfBit f.div2, f.rCounter)
  else none

/-- The plan configuration of PLAN: [63:35] is zero, and without the manual bit so are the three reference-path entries
(R73). -/
def planOperand (opC : Dword) : Option (BitVec 16 × RefPath) :=
  let f := splitCfg opC
  if f = { modulus := f.modulus } then some (f.modulus, .auto)
  else if f = { modulus := f.modulus, rCounter := f.rCounter, doubler := f.doubler, div2 := f.div2, manual := 1 } then
    some (f.modulus, .manual (boolOfBit f.doubler) (boolOfBit f.div2) f.rCounter)
  else none

/-! ## Decoding -/

/-- The operation a command asks for; none is IllegalCommand (R72). Operand ports an operation does not use are not
looked at (log 13). -/
def decodeCommand (c : Command) : Option Instr :=
  let f := splitCw c.cw
  match f.opcode.toNat with
  | 0 => if f = { opcode := 0 } then some .rsdef else none
  | 1 =>
    if f = { opcode := 1, offset := f.offset, widthm1 := f.widthm1 } then
      (wordOperand c.opA).map fun w => .fget f.offset f.widthm1 w
    else none
  | 2 =>
    if f = { opcode := 2, offset := f.offset, widthm1 := f.widthm1 } then
      (wordOperand c.opA).map fun w => .fset f.offset f.widthm1 w c.opB
    else none
  | 3 => if f = { opcode := 3, fid := f.fid } then (RegField.ofFid f.fid).map .rget else none
  | 4 =>
    if f = { opcode := 4, fid := f.fid, psc := f.psc } then
      match RegField.ofFid f.fid with
      | some g => if pscAllowed g (pscOfBit f.psc) then some (.rset g (pscOfBit f.psc) c.opA) else none
      | none => none
    else none
  | 5 => if f = { opcode := 5, ra := f.ra } then (Reg.ofBits f.ra).map .rword else none
  | 6 => if f = { opcode := 6 } then some .rser else none
  | 7 =>
    if f = { opcode := 7 } then
      (pfdOperand c.opC).map fun r => .pfd c.opA r.1 r.2.1 r.2.2
    else none
  | 8 =>
    if f = { opcode := 8 } then
      (planOperand c.opC).map fun r => .plan c.opA c.opB r.1 r.2
    else none
  | 9 => if f = { opcode := 9 } then some (.fout c.opA) else none
  | 10 => if f = { opcode := 10 } then (wordOperand c.opA).map .wwrite else none
  | 11 => if f = { opcode := 11 } then some .prog else none
  | _ => none

/-- A register word as its format's fields: "a decoder reads w[2:0] and then knows which field list applies"
(R50); the bits in no field are zero (R51 to R56). -/
def decodeWireWord (w : Word) : Option Instr :=
  match Reg.ofBits (w.extractLsb' 0 3) with
  | none => none
  | some a =>
    if w &&& a.unassigned ≠ 0 then none
    else
      some <| match a with
      | .r0 => .w0 (w.extractLsb' 3 12) (w.extractLsb' 15 16)
      | .r1 => .w1 (w.extractLsb' 3 12) (w.extractLsb' 15 12) (w.extractLsb' 27 1) (w.extractLsb' 28 1)
      | .r2 =>
        .w2 (w.extractLsb' 3 1) (w.extractLsb' 4 1) (w.extractLsb' 5 1) (w.extractLsb' 6 1) (w.extractLsb' 7 1)
          (w.extractLsb' 8 1) (w.extractLsb' 9 4) (w.extractLsb' 13 1) (w.extractLsb' 14 10) (w.extractLsb' 24 1)
          (w.extractLsb' 25 1) (w.extractLsb' 26 3) (w.extractLsb' 29 2)
      | .r3 =>
        .w3 (w.extractLsb' 3 12) (w.extractLsb' 15 2) (w.extractLsb' 18 1) (w.extractLsb' 21 1) (w.extractLsb' 22 1)
          (w.extractLsb' 23 1)
      | .r4 =>
        .w4 (w.extractLsb' 3 2) (w.extractLsb' 5 1) (w.extractLsb' 6 2) (w.extractLsb' 8 1) (w.extractLsb' 9 1)
          (w.extractLsb' 10 1) (w.extractLsb' 11 1) (w.extractLsb' 12 8) (w.extractLsb' 20 3) (w.extractLsb' 23 1)
      | .r5 => .w5 (w.extractLsb' 22 2)

/-- The instruction an input asks for, by the kind of input it is. -/
def decode : Input → Option Instr
  | .command c => decodeCommand c
  | .regWord w => decodeWireWord w
  | .reset => none

/-! ## Encoding, from the same tables -/

/-- Format W0 (R51). -/
def wordW0 (frac : BitVec 12) (int : BitVec 16) : Word :=
  0#1 ++ int ++ frac ++ 0b000#3

/-- Format W1 (R52). -/
def wordW1 (mod phase : BitVec 12) (prescaler phaseAdjust : BitVec 1) : Word :=
  0#3 ++ phaseAdjust ++ prescaler ++ phase ++ mod ++ 0b001#3

/-- Format W2 (R53). -/
def wordW2 (counterReset cpThreeState powerDown pdPolarity ldp ldf : BitVec 1) (cpCurrent : BitVec 4) (doubleBuffer : BitVec 1)
    (rCounter : BitVec 10) (rdiv2 refDoubler : BitVec 1) (muxout : BitVec 3) (noiseMode : BitVec 2) : Word :=
  0#1 ++ noiseMode ++ muxout ++ refDoubler ++ rdiv2 ++ rCounter ++ doubleBuffer ++ cpCurrent ++ ldf ++ ldp ++ pdPolarity ++
    powerDown ++ cpThreeState ++ counterReset ++ 0b010#3

/-- Format W3 (R54). -/
def wordW3 (clockDivider : BitVec 12) (clockDividerMode : BitVec 2)
    (csr chargeCancel antiBacklashWidth bandSelectClockMode : BitVec 1) : Word :=
  0#8 ++ bandSelectClockMode ++ antiBacklashWidth ++ chargeCancel ++ 0#2 ++ csr ++ 0#1 ++ clockDividerMode ++ clockDivider ++
    0b011#3

/-- Format W4 (R55). -/
def wordW4 (outputPower : BitVec 2) (rfOutputEnable : BitVec 1) (auxOutputPower : BitVec 2)
    (auxOutputEnable auxOutputSelect muteTillLock vcoPowerDown : BitVec 1) (bandSelectClockDiv : BitVec 8)
    (rfDividerSelect : BitVec 3) (feedbackSelect : BitVec 1) : Word :=
  0#8 ++ feedbackSelect ++ rfDividerSelect ++ bandSelectClockDiv ++ vcoPowerDown ++ muteTillLock ++ auxOutputSelect ++
    auxOutputEnable ++ auxOutputPower ++ rfOutputEnable ++ outputPower ++ 0b100#3

/-- Format W5 (R56). -/
def wordW5 (lockDetectPin : BitVec 2) : Word :=
  0#8 ++ lockDetectPin ++ 0#19 ++ 0b101#3

/-- The input that asks for an instruction (R50 to R56, R71 to R73); unused operand ports are zero. -/
def encode : Instr → Input
  | .w0 frac int => .regWord (wordW0 frac int)
  | .w1 mod phase prescaler phaseAdjust => .regWord (wordW1 mod phase prescaler phaseAdjust)
  | .w2 a b c d e f g h i j k l m => .regWord (wordW2 a b c d e f g h i j k l m)
  | .w3 a b c d e f => .regWord (wordW3 a b c d e f)
  | .w4 a b c d e f g h i j => .regWord (wordW4 a b c d e f g h i j)
  | .w5 a => .regWord (wordW5 a)
  | .rsdef => .command { cw := joinCw { opcode := 0 } }
  | .fget offset widthm1 word =>
    .command { cw := joinCw { opcode := 1, offset := offset, widthm1 := widthm1 }, opA := word.setWidth 64 }
  | .fset offset widthm1 word value =>
    .command { cw := joinCw { opcode := 2, offset := offset, widthm1 := widthm1 }, opA := word.setWidth 64, opB := value }
  | .rget f => .command { cw := joinCw { opcode := 3, fid := f.fid } }
  | .rset f psc value => .command { cw := joinCw { opcode := 4, fid := f.fid, psc := pscBit psc }, opA := value }
  | .rword a => .command { cw := joinCw { opcode := 5, ra := BitVec.ofNat 3 a.number } }
  | .rser => .command { cw := joinCw { opcode := 6 } }
  | .pfd ref doubler div2 r =>
    .command { cw := joinCw { opcode := 7 }, opA := ref,
               opC := joinCfg { rCounter := r, doubler := bitOfBool doubler, div2 := bitOfBool div2 } }
  | .plan ref target modulus path =>
    .command { cw := joinCw { opcode := 8 }, opA := ref, opB := target,
               opC := match path with
                 | .auto => joinCfg { modulus := modulus }
                 | .manual doubler div2 r =>
                   joinCfg { modulus := modulus, rCounter := r, doubler := bitOfBool doubler, div2 := bitOfBool div2,
                             manual := 1 } }
  | .fout ref => .command { cw := joinCw { opcode := 9 }, opA := ref }
  | .wwrite word => .command { cw := joinCw { opcode := 10 }, opA := word.setWidth 64 }
  | .prog => .command { cw := joinCw { opcode := 11 } }

/-! ## The opcode table's bit numbering -/

/-- The command whose bits are `w`, counted on from the command word: opA is bits [95:32], opB [159:96], opC [223:160];
every bit from `nbits` on is zero. -/
def commandOfBits (nbits w : Nat) : Command :=
  let v := w % 2 ^ nbits
  { cw := BitVec.ofNat 32 v, opA := BitVec.ofNat 64 (v / 2 ^ 32), opB := BitVec.ofNat 64 (v / 2 ^ 96),
    opC := BitVec.ofNat 64 (v / 2 ^ 160) }

/-- The input that bits stand for when nothing says which port they are on. DESIGN CHOICE (log 3): a command where they decode
as one, else a register word where they decode as one, else a (then illegal) command. Many words are both, and are read as
the command here: 0x00000000 (RSDEF and W0 with zero fields), 0x60000000 (RSER and W0 with INT = 0xC000), 0x30400000
(RGET INT and W0), 0x50000002 (RWORD 2 and W2). The spec tells them apart by the port only. -/
def inputOfBits (nbits w : Nat) : Input :=
  let c := commandOfBits nbits w
  if (decodeCommand c).isSome then .command c
  else if (decodeWireWord c.cw).isSome then .regWord c.cw
  else .command c

/-- The instruction the decoder reads from the bits of an opcode-table row. -/
def decodeTableWord (nbits w : Nat) : Option Instr := decode (inputOfBits nbits w)

end Sys2Proof
end

