-- ==== Sys2Proof/Config.lean ====
section
/-! DEFINITION. The parameters the spec leaves OPEN (00_scope.md R4) and the free values (93_implementation_defined.md). -/

namespace Sys2Proof

/-- ENUM_CODES: the numeric codes of the enumerated values (30_encoding.md R60 to R64). The source names the values and
gives no codes, so they are a parameter (D12). The operands of PRESCALER in `RSET INT` are not these codes (R71). -/
structure EnumCodes where
  /-- disabled / enabled of DOUBLE_BUFFER, RF_OUTPUT_ENABLE, AUX_OUTPUT_ENABLE (R60). -/
  disabled : BitVec 1
  enabled : BitVec 1
  /-- PRESCALER (R61). -/
  pscLow : BitVec 1
  pscHigh : BitVec 1
  /-- PD_POLARITY (R62). -/
  pdNegative : BitVec 1
  pdPositive : BitVec 1
  /-- LOCK_DETECT_PIN (R63). -/
  ldPinLow : BitVec 2
  ldPinDigital : BitVec 2
  ldPinHigh : BitVec 2
  /-- The four feedback-mode settings PLAN writes (R64): FB_FUNDAMENTAL, LDF_FRAC, LDP_FRAC, ABP_FRAC. -/
  fbFundamental : BitVec 1
  ldfFrac : BitVec 1
  ldpFrac : BitVec 1
  abpFrac : BitVec 1
  deriving DecidableEq, Repr

/-- The parameters marked OPEN in R4 that some rule reads; frequencies in Hz. State carries one such record (log 6). -/
structure Params where
  vcoMin : Nat
  vcoMax : Nat
  pfdMaxInt : Nat
  pfdMaxFrac : Nat
  codes : EnumCodes
  deriving DecidableEq, Repr

/-- The side conditions on the OPEN parameters that the rules rely on (92_eei_decisions.md, "Parameter constraints
gathered"; R116, R117, R119). -/
abbrev Params.Valid (p : Params) : Prop :=
  2016000000 < p.vcoMin ∧ p.vcoMin ≤ 4032000000 ∧ 4032000000 ≤ p.vcoMax ∧ 2 * p.vcoMin ≤ p.vcoMax ∧
    25000000 ≤ p.pfdMaxFrac ∧ p.pfdMaxFrac ≤ p.pfdMaxInt

/-- FREE VALUE (log 10): the `result` latch after an error or a fault is any value (R157, U9). -/
opaque Config.freeResult : Nat → Dword

/-- FREE VALUE (log 11): what the Device Writer answers where State lists no answer (R141, U8). -/
opaque Config.freeAnswer : Nat → Answer

/-- FREE VALUE (log 9): what a chip latch holds after a failed write of its word (R148, U7). -/
opaque Config.freeLatch : Nat → Word

/-- FREE VALUE (log 9): whether a failed write of register 0 started a resync (R146: "in doubt"). -/
opaque Config.freeResync : Nat → Bool

/-- FREE VALUE (log 9): how far along the bytes and the pulse a failing write got (R141). -/
opaque Config.freeLineProgress : Nat → Nat

/-- OPEN without default (R4, D27): bit order inside a byte on the line. No rule reads it (log 25). -/
opaque Config.wireBitOrder : BitOrder

/-- OPEN without default (R4, D28): the load-enable delays of the transport. No rule reads them (log 25). -/
opaque Config.leSetupDelay : Nat
opaque Config.leHoldDelay : Nat
opaque Config.lePostDelay : Nat

end Sys2Proof
end

