-- ==== Sys2Proof/Machine/Defaults.lean ====
section
/-! DEFINITION. The fixed parameters of 00_scope.md R4 and the defaults of the OPEN ones. -/

namespace Sys2Proof

/-- REF_MIN_HZ, inclusive (R4). -/
def refMinHz : Nat := 10000000

/-- REF_MAX_HZ, exclusive (R4). -/
def refMaxHz : Nat := 250000000

/-- PRESCALER_CROSSOVER_HZ (R4). -/
def prescalerCrossoverHz : Nat := 3600000000

/-- MAX_STAGES (R4). -/
def maxStages : Nat := 6

/-- MOD_MIN and MOD_MAX (R4). -/
def modMin : Nat := 2
def modMax : Nat := 4095

/-- MOD_DEFAULT (R4), the modulus of an assembler line that gives none (30_encoding.md R74). -/
def modDefault : Nat := 4000

/-- R_MIN and R_MAX (R4). -/
def rMin : Nat := 1
def rMax : Nat := 1023

/-- BSCD_MIN and BSCD_MAX (R4). -/
def bscdMin : Nat := 1
def bscdMax : Nat := 255

/-- INT_FLOOR_LOW and INT_FLOOR_HIGH (R4). -/
def intFloor : Prescaler → Nat
  | .low => 23
  | .high => 75

/-- PRESUMED (log 7): the default ENUM_CODES (R60 to R64; G3 to G7). -/
def EnumCodes.default : EnumCodes :=
  { disabled := 0, enabled := 1, pscLow := 0, pscHigh := 1, pdNegative := 0, pdPositive := 1,
    ldPinLow := 0, ldPinDigital := 1, ldPinHigh := 3, fbFundamental := 1, ldfFrac := 0, ldpFrac := 0, abpFrac := 0 }

/-- PRESUMED (log 6): the default VCO range and PFD ceilings (R4; G1, G2). -/
def Params.default : Params :=
  { vcoMin := 2200000000, vcoMax := 4400000000, pfdMaxInt := 90000000, pfdMaxFrac := 32000000, codes := .default }

end Sys2Proof
end

