-- ==== Sys2Proof/Machine/State.lean ====
section
/-! DEFINITION. The state of the block and what hangs on its ports, as plain data, and the state after reset. -/

namespace Sys2Proof.Machine

/-- The outcome of an operation, as the `status` latch holds it (60_exceptions.md R151). -/
inductive Status
  | ok
  | invalidReferenceFrequency | invalidOutputFrequency | busError | pinError
  | illegalCommand | badDescriptor | badModulus | divideByZero | badTag
  deriving DecidableEq, Repr

/-- Six 32-bit words addressed by register number: the Register Set (R10) and the chip's latches (R33). -/
structure Words where
  r0 : Word
  r1 : Word
  r2 : Word
  r3 : Word
  r4 : Word
  r5 : Word
  deriving DecidableEq, Repr

/-- An event of the wire history (43_device_writer.md R148). -/
inductive WireEvent
  | written (word : Word)
  | failed (word : Word) (e : TransportError)
  deriving DecidableEq, Repr

/-- What goes over the serial line and the load-enable pin (R140, R141). -/
inductive LineEvent
  | byte (b : Byte)
  | leAssert | leHold | leDeassert
  deriving DecidableEq, Repr

/-- The whole state. Fields down to `line` are the spec's; the last four are the model's own (INVENTORY.md). -/
structure State where
  /-- The Register Set `x[0..5]` (R10). -/
  x : Words
  /-- The status latch (R22). -/
  status : Status
  /-- The result latch (R22). -/
  result : Dword
  /-- The word output of the last operation: zero or six words (R22, R70; log 12). -/
  wout : List Word
  /-- The wire event history (R148). -/
  hist : List WireEvent
  /-- The chip's latches `dev[0..5]` (R33). -/
  dev : Words
  /-- How many `Resync` events the chip model has recorded (R33; log 20). -/
  resyncs : Nat
  /-- What has gone over the line and the load-enable pin, in order (R32, R141; log 15). -/
  line : List LineEvent
  /-- MODEL'S OWN: the inputs presented and not yet taken, the next one first (log 4). -/
  inbox : List Input
  /-- MODEL'S OWN: the Device Writer's coming answers, the next one first (R141; log 11). -/
  answers : List Answer
  /-- MODEL'S OWN: the OPEN parameters and ENUM_CODES, which no step changes (R4; log 6). -/
  params : Params
  /-- MODEL'S OWN: the number of free values drawn so far (log 10). -/
  free : Nat
  deriving DecidableEq, Repr

/-- Why the machine stops by itself. The errors and faults of R151 are no stops: they are outcomes in the `status` latch,
after which the next operation runs (R157, R158; log 1). -/
inductive Fault
  /-- Raised by `step` where the host has presented nothing more: the run has ended (R186; log 5). SAFE: nothing happens. -/
  | noOperation
  deriving DecidableEq, Repr

/-- What the model gives no meaning. -/
inductive Refusal
  /-- Raised by an arm of `exec` for an instruction without a meaning; no arm of this model uses it. SAFE. -/
  | notModelled (mnemonic : String)
  deriving DecidableEq, Repr

/-- The default Register Set: "all fields zero except each register's fixed address tag" (R26). -/
def Words.default : Words := ⟨0, 1, 2, 3, 4, 5⟩

/-- DESIGN CHOICE (log 8): the chip's latches at the start of a run, "unspecified initial value" (R33). -/
def Words.zero : Words := ⟨0, 0, 0, 0, 0, 0⟩

/-- The machine right after reset (R26, R170, R171). -/
def State.reset : State :=
  { x := .default, status := .ok, result := 0, wout := [], hist := [], dev := .zero, resyncs := 0, line := [],
    inbox := [], answers := [], params := .default, free := 0 }

end Sys2Proof.Machine
end

