-- ==== Sys2Proof/Machine/Flags.lean ====
section
/-! DEFINITION. There are no flags or condition codes (10_state.md R23). What an operation leaves about its outcome is the
`status` latch: its codes and kinds (60_exceptions.md R151), and the latch writes of an operation that ends. -/

namespace Sys2Proof.Machine

/-- The code on the 8-bit status port (R151). -/
def Status.code : Status → BitVec 8
  | .ok => 0x00
  | .invalidReferenceFrequency => 0x01
  | .invalidOutputFrequency => 0x02
  | .busError => 0x03
  | .pinError => 0x04
  | .illegalCommand => 0x80
  | .badDescriptor => 0x81
  | .badModulus => 0x82
  | .divideByZero => 0x83
  | .badTag => 0x84

/-- A spec fault: "a code at or above 0x80" (R153). -/
def Status.isFault (st : Status) : Bool := 0x80 ≤ st.code.toNat

/-- The status a failing Device Writer leaves: "surfaced unchanged" (R143). -/
def Status.ofTransport : TransportError → Status
  | .busError => .busError
  | .pinError => .pinError

/-- An operation ends: it writes both latches and drives the word output, with no words; RSER and PROG drive theirs after
it, by `driveWords` (R22, R70). -/
def finish (st : Status) (v : Dword) (s : State) : State :=
  { s with status := st, result := v, wout := [] }

/-- RSER and PROG "additionally produce a sequence of six words on the word output" (R22; log 12). -/
def driveWords (ws : List Word) (s : State) : State := { s with wout := ws }

/-- An operation completes with a result: `result <- v; status <- Ok`. -/
def complete (v : Dword) (s : State) : State := finish .ok v s

end Sys2Proof.Machine
end

