-- ==== Sys2Proof/Machine/Ops.lean ====
section
/-! DEFINITION. The shared operations: bit fields, the Register Set, the wire and the chip's latches, the Device Writer,
ending an operation in an error, and taking an input. -/

namespace Sys2Proof.Machine

/-! ## Bit fields of a word (40_codec.md) -/

/-- `mask(w) = 2^w - 1`, as a word (00_scope.md R7). -/
def mask (width : Nat) : Word := BitVec.ofNat 32 (2 ^ width - 1)

/-- "right-shift then mask to width" (R59, R82). -/
def fieldGet (word : Word) (offset width : Nat) : Word := (word >>> offset) &&& mask width

/-- "clear the field's bits, OR in `value & mask`" (R59, R83). The value is any natural. -/
def fieldSet (word : Word) (offset width : Nat) (value : Nat) : Word :=
  (word &&& ~~~(mask width <<< offset)) ||| ((BitVec.ofNat 32 value &&& mask width) <<< offset)

/-! ## Six words by register number -/

def Words.get (ws : Words) : Reg → Word
  | .r0 => ws.r0 | .r1 => ws.r1 | .r2 => ws.r2 | .r3 => ws.r3 | .r4 => ws.r4 | .r5 => ws.r5

def Words.set (ws : Words) (a : Reg) (v : Word) : Words :=
  match a with
  | .r0 => { ws with r0 := v }
  | .r1 => { ws with r1 := v }
  | .r2 => { ws with r2 := v }
  | .r3 => { ws with r3 := v }
  | .r4 => { ws with r4 := v }
  | .r5 => { ws with r5 := v }

/-! ## The Register Set -/

/-- A word with the register's tag in bits [2:0]: "ORs in its fixed 3-bit address as the lowest bits" (R11, R99). -/
def withTag (a : Reg) (v : Word) : Word := (v &&& 0xFFFFFFF8#32) ||| a.tag

/-- `x[a]`: the one read of a register; the tag is hardwired (R11; log 14). -/
def readReg (x : Words) (a : Reg) : Word := withTag a (x.get a)

/-- `x[a] <- v`: the one write of a register; no write changes the tag (R11; log 14). -/
def writeReg (a : Reg) (v : Word) (x : Words) : Words := x.set a (withTag a v)

/-- The value of a named field, right-justified (R92). -/
def getField (x : Words) (f : RegField) : Nat := (fieldGet (readReg x f.desc.reg) f.desc.offset f.desc.width).toNat

/-- The read-modify-write of a named field, without clamp (R93). -/
def setField (f : RegField) (v : Nat) (x : Words) : Words :=
  writeReg f.desc.reg (fieldSet (readReg x f.desc.reg) f.desc.offset f.desc.width v) x

/-- The wire image: the six words in the order R5, R4, R3, R2, R1, R0 (R38, R100). -/
def wireImage (x : Words) : List Word :=
  [readReg x .r5, readReg x .r4, readReg x .r3, readReg x .r2, readReg x .r1, readReg x .r0]

/-! ## The wire and the chip's latches (20_memory.md R32, R33) -/

/-- The latch a word on the wire selects: bits [2:0] (R30, R34). -/
def latchOf (w : Word) : Option Reg := Reg.ofBits (w.extractLsb' 0 3)

/-- A word as "4 bytes most-significant-byte first" (R32). -/
def wireBytes (w : Word) : List Byte :=
  [w.extractLsb' 24 8, w.extractLsb' 16 8, w.extractLsb' 8 8, w.extractLsb' 0 8]

/-- The four bytes, then the load-enable pulse: assert, hold, deassert (R140, R141). -/
def lineEvents (w : Word) : List LineEvent :=
  (wireBytes w).map .byte ++ [.leAssert, .leHold, .leDeassert]

/-- `dev[t] <- w` where the tag selects a latch (R33). -/
def latchWord (w v : Word) (dev : Words) : Words :=
  match latchOf w with
  | some a => dev.set a v
  | none => dev

/-- Whether a write of this word is a write of register 0, which records a `Resync` (R33). -/
def triggersResync (w : Word) : Bool := latchOf w == some .r0

/-- `MemWrite(w[2:0], 4, w)`: the bytes and the pulse go out, the chip latches the word, and a write with tag 0 records a
Resync (R7, R33, R141). -/
def memWrite (w : Word) (s : State) : State :=
  { s with
    line := s.line ++ lineEvents w
    dev := latchWord w w s.dev
    resyncs := s.resyncs + (if triggersResync w then 1 else 0) }

/-- A write that failed: how far the line got, what the word's latch now holds and whether register 0 started a resync are
free values (R141, R146, R148, U7; log 9). -/
def failedWrite (w : Word) (s : State) : State :=
  { s with
    line := s.line ++ (lineEvents w).take (Config.freeLineProgress s.free)
    dev := latchWord w (Config.freeLatch s.free) s.dev
    resyncs := s.resyncs + (if triggersResync w && Config.freeResync s.free then 1 else 0)
    free := s.free + 1 }

/-! ## The Device Writer (43_device_writer.md R140 to R143) -/

/-- The Device Writer's answer to the next write: the next one listed, else a free value (R141, U8; log 11). -/
def takeAnswer (s : State) : Answer × State :=
  match s.answers with
  | a :: rest => (a, { s with answers := rest })
  | [] => (Config.freeAnswer s.free, { s with free := s.free + 1 })

/-- An event is appended to the wire history (R148). -/
def record (ev : WireEvent) (s : State) : State := { s with hist := s.hist ++ [ev] }

/-- `DeviceWriter.write(w)` and the history entry of its outcome (R141, R144). -/
def sendWord (w : Word) (s : State) : Answer × State :=
  let (r, s) := takeAnswer s
  match r with
  | .ok => (.ok, record (.written w) (memWrite w s))
  | .error e => (.error e, record (.failed w e) (failedWrite w s))

/-- The loop of PROG over the words still to send, `n` being written already: on the first failure it stops with the count
in `result` (R144, R145); at the end `result` is the number of words (R144). -/
def sendWords : List Word → Nat → State → State
  | [], n, s => complete (BitVec.ofNat 64 n) s
  | w :: ws, n, s =>
    match sendWord w s with
    | (.ok, s) => sendWords ws (n + 1) s
    | (.error e, s) => finish (.ofTransport e) (BitVec.ofNat 64 n) s

/-! ## Errors and faults (60_exceptions.md R157) -/

/-- `raise E` and `fault F`: the operation stops, `status` takes the code, `result` becomes unspecified (a free value), and
nothing else changes. There is no handler, no saved register, no mode and no return (R157, R158; log 1, log 10). -/
def raise (st : Status) (s : State) : State :=
  { finish st (Config.freeResult s.free) s with free := s.free + 1 }

/-- The operation ends with its value in `result`, or in the error its checks met first (R155). -/
def conclude (r : Except Status Dword) (s : State) : State :=
  match r with
  | .ok v => complete v s
  | .error st => raise st s

/-! ## Writing one word (43_device_writer.md R141) -/

/-- The pseudocode of WWRITE: a word tagged 6 or 7 is `fault BadTag` and nothing is sent (R142); otherwise the Device Writer's
answer decides, and a transport error is surfaced as it came (R143) with `result` unspecified (R157). `memWrite` is used here
and by the loop of PROG, and by nothing else (R78). -/
def writeWord (w : Word) (s : State) : State :=
  if (latchOf w).isNone then raise .badTag s
  else
    match sendWord w s with
    | (.ok, s) => complete 0 s
    | (.error e, s) => raise (.ofTransport e) s

/-! ## Taking an input (30_encoding.md R70) -/

/-- The next input the host has presented, and the state without it (log 4). -/
def takeInput (s : State) : Option (Input × State) :=
  match s.inbox with
  | [] => none
  | i :: rest => some (i, { s with inbox := rest })

/-- The reset input: "the effect of RSDEF", status Ok, result 0; it sends nothing on the wire (R170, R171; log 18). -/
def hostReset (s : State) : State := complete 0 { s with x := .default }

/-- An input that decodes to no instruction. A command is `fault IllegalCommand` (R72, R153), and so is a word presented by
itself that is none of the six formats, as it is where it is one of them (D2; log 2, log 17). -/
def withoutInstr (inp : Input) (s : State) : Host.Outcome State Fault Refusal :=
  match inp with
  | .command _ | .regWord _ => .next (raise .illegalCommand s)
  | .reset => .next (hostReset s)

end Sys2Proof.Machine
end

