-- ==== Sys2Proof/Machine/Operands.lean ====
section
/-! DEFINITION. Operand forms: the generic descriptor (40_codec.md R80, R81), the value of RSET and its clamps
(41_regset.md R94 to R98), the reference path (42_planner.md R110, R118, R119). -/

namespace Sys2Proof.Machine

/-- `clamp(v, lo, hi) = min(max(v, lo), hi)` (00_scope.md R7). -/
def clamp (v lo hi : Nat) : Nat := min (max v lo) hi

/-- `ceil_div(a, b) = (a + b - 1) / b` (R7). -/
def ceilDiv (a b : Nat) : Nat := (a + b - 1) / b

/-- The width of a descriptor on the command port: `widthm1` is the width minus one (R71). -/
def widthOf (widthm1 : BitVec 5) : Nat := widthm1.toNat + 1

/-- Well-formed descriptors (R81). -/
def descriptorFits (offset width : Nat) : Bool := 1 ≤ width && width ≤ 32 && offset ≤ 31 && offset + width ≤ 32

/-- `prepare`: the clamp a named field has before the codec masks (R94 to R98). -/
def prepare (f : RegField) (v : Nat) (psc : Prescaler) : Nat :=
  match f with
  | .rfDividerSelect => min v maxStages
  | .rCounter => clamp v rMin rMax
  | .bandSelectClockDiv => clamp v bscdMin bscdMax
  | .int => max v (intFloor psc)
  | _ => v

/-- RSET on the six words: clamp, then masked write of the field and nothing else (R93). -/
def rsetWords (f : RegField) (v : Nat) (psc : Prescaler) (x : Words) : Words := setField f (prepare f v psc) x

/-- `pfd_raw(ref, doubler, r, div2)`, evaluated left to right (R110). -/
def pfdRaw (ref doubler r div2 : Nat) : Nat := ref * (1 + doubler) / r / (1 + div2)

/-- The validated phase-detector frequency: range of ref, division by zero, ceiling, in that order (R111, R112, R155). -/
def pfdChecked (p : Params) (ref doubler r div2 : Nat) : Except Status Nat :=
  if ref < refMinHz ∨ refMaxHz ≤ ref then .error .invalidReferenceFrequency
  else if r = 0 then .error .divideByZero
  else if p.pfdMaxInt < pfdRaw ref doubler r div2 then .error .invalidReferenceFrequency
  else .ok (pfdRaw ref doubler r div2)

/-- The reference path PLAN uses, as (doubler, div2, r): the given one with r clamped (R118), or the policy (R119). -/
def refPathSelect (p : Params) (ref : Nat) : RefPath → Nat × Nat × Nat
  | .auto => (1, 1, clamp (ceilDiv ref p.pfdMaxFrac) rMin rMax)
  | .manual doubler div2 r => (doubler.toNat, div2.toNat, clamp r.toNat rMin rMax)

/-- OUT_MIN_HZ and OUT_MAX_HZ (R4, R114). -/
def outMinHz (p : Params) : Nat := ceilDiv p.vcoMin 64
def outMaxHz (p : Params) : Nat := p.vcoMax

end Sys2Proof.Machine
end

