-- ==== Sys2Proof/Machine/Codec.lean ====
section
/-! DEFINITION. The Bitfield Codec: FGET and FSET (40_codec.md). Both read their operands only. -/

namespace Sys2Proof.Machine

/-- FGET (R82). -/
def execFget (offset widthm1 : BitVec 5) (word : Word) (s : State) : Host.Outcome State Fault Refusal :=
  .next <| conclude
    (if descriptorFits offset.toNat (widthOf widthm1) then
      .ok ((fieldGet word offset.toNat (widthOf widthm1)).setWidth 64)
     else .error .badDescriptor) s

/-- FSET (R83). -/
def execFset (offset widthm1 : BitVec 5) (word : Word) (value : Dword) (s : State) : Host.Outcome State Fault Refusal :=
  .next <| conclude
    (if descriptorFits offset.toNat (widthOf widthm1) then
      .ok ((fieldSet word offset.toNat (widthOf widthm1) value.toNat).setWidth 64)
     else .error .badDescriptor) s

end Sys2Proof.Machine
end

