-- ==== Sys2Proof/Machine/DeviceWriter.lean ====
section
/-! DEFINITION. The Device Writer boundary: WWRITE and PROG (43_device_writer.md). Neither writes the Register Set. -/

namespace Sys2Proof.Machine

/-- WWRITE (R141, R142). -/
def execWwrite (word : Word) (s : State) : Host.Outcome State Fault Refusal :=
  .next (writeWord word s)

/-- PROG (R144, R145): the wire image as it stood when the operation began, R5 first, up to the first failure; the six words
stand on the word output however far the writes got (R22; log 12). -/
def execProg (s : State) : Host.Outcome State Fault Refusal :=
  .next (driveWords (wireImage s.x) (sendWords (wireImage s.x) 0 s))

end Sys2Proof.Machine
end

