-- ==== Sys2Proof/Machine/Planner.lean ====
section
/-! DEFINITION. The Frequency Planner: PFD, PLAN, FOUT (42_planner.md). All arithmetic is on naturals (R130). -/

namespace Sys2Proof.Machine

/-- PFD (R111). -/
def execPfd (ref : Dword) (doubler div2 : Bool) (rCounter : BitVec 16) (s : State) : Host.Outcome State Fault Refusal :=
  .next <| conclude
    ((pfdChecked s.params ref.toNat doubler.toNat rCounter.toNat div2.toNat).map (BitVec.ofNat 64)) s

/-- Step 3, the divider search: double the candidate while it is below VCO_MIN_HZ and doublings are left; the candidate and
the number of doublings made (R116). -/
def dividerSearch (vcoMin : Nat) : Nat → Nat → Nat → Nat × Nat
  | 0, cand, stages => (cand, stages)
  | left + 1, cand, stages =>
    if cand < vcoMin then dividerSearch vcoMin left (cand * 2) (stages + 1) else (cand, stages)

/-- Step 2, the prescaler, from the target (R115). -/
def selectPrescaler (target : Nat) : Prescaler := if prescalerCrossoverHz < target then .high else .low

/-- What PLAN derives before it writes anything (R113). -/
structure PlanValues where
  psc : Prescaler
  stages : Nat
  doubler : Nat
  div2 : Nat
  r : Nat
  int : Nat
  frac : Nat
  modulus : Nat
  deriving DecidableEq, Repr

/-- Steps 1 to 5 of PLAN: every error and fault comes from here, before any write (R113 to R121, R125, R155). -/
def planCompute (p : Params) (ref target modulus : Nat) (path : RefPath) : Except Status PlanValues :=
  if modulus < modMin ∨ modMax < modulus then .error .badModulus
  else if target < outMinHz p ∨ outMaxHz p < target then .error .invalidOutputFrequency
  else
    let (cand, stages) := dividerSearch p.vcoMin maxStages target 0
    if cand < p.vcoMin ∨ p.vcoMax < cand then .error .invalidOutputFrequency
    else
      let (doubler, div2, r) := refPathSelect p ref path
      match pfdChecked p ref doubler r div2 with
      | .error st => .error st
      | .ok fPfd =>
        let nscaled := cand * modulus / fPfd
        .ok { psc := selectPrescaler target, stages, doubler, div2, r, int := nscaled / modulus, frac := nscaled % modulus,
              modulus }

/-- The prescaler code PLAN writes (R61, R124). -/
def prescalerCode (c : EnumCodes) : Prescaler → Nat
  | .low => c.pscLow.toNat
  | .high => c.pscHigh.toNat

/-- Steps 6 and 7 of PLAN: the twelve fields it writes and their values, in the order of the pseudocode (R113, R124). -/
def planWrites (c : EnumCodes) (v : PlanValues) : List (RegField × Nat) :=
  [(.frac, v.frac), (.int, v.int), (.mod, v.modulus), (.prescaler, prescalerCode c v.psc), (.rfDividerSelect, v.stages),
   (.feedbackSelect, c.fbFundamental.toNat), (.ldf, c.ldfFrac.toNat), (.ldp, c.ldpFrac.toNat),
   (.antiBacklashWidth, c.abpFrac.toNat), (.rCounter, v.r), (.rdiv2, v.div2), (.refDoubler, v.doubler)]

/-- Each write is an RSET with the prescaler mode PLAN selected (R113, R123). -/
def applyWrites (psc : Prescaler) (ws : List (RegField × Nat)) (x : Words) : Words :=
  ws.foldl (fun x fv => rsetWords fv.1 fv.2 psc x) x

/-- PLAN (R113): the Register Set changes on success only (R125). -/
def execPlan (ref target : Dword) (modulus : BitVec 16) (path : RefPath) (s : State) : Host.Outcome State Fault Refusal :=
  match planCompute s.params ref.toNat target.toNat modulus.toNat path with
  | .error st => .next (raise st s)
  | .ok v => .next (complete 0 { s with x := applyWrites v.psc (planWrites s.params.codes v) s.x })

/-- The inverse calculation on the six words (R127, R128), checks in the order of R155. -/
def foutCompute (p : Params) (x : Words) (ref : Nat) : Except Status Nat :=
  match pfdChecked p ref (getField x .refDoubler) (getField x .rCounter) (getField x .rdiv2) with
  | .error st => .error st
  | .ok fPfd =>
    if getField x .mod = 0 then .error .divideByZero
    else
      let fOut := (getField x .int * fPfd + getField x .frac * fPfd / getField x .mod) / 2 ^ getField x .rfDividerSelect
      if fOut < outMinHz p ∨ outMaxHz p < fOut then .error .invalidOutputFrequency else .ok fOut

/-- FOUT (R127). -/
def execFout (ref : Dword) (s : State) : Host.Outcome State Fault Refusal :=
  .next <| conclude ((foutCompute s.params s.x ref.toNat).map (BitVec.ofNat 64)) s

end Sys2Proof.Machine
end

