-- ==== Sys2Proof/Machine/RegisterSet.lean ====
section
/-! DEFINITION. The Register Set Model: RSDEF, RGET, RSET, RWORD, RSER (41_regset.md). -/

namespace Sys2Proof.Machine

/-- RSDEF (R91). -/
def execRsdef (s : State) : Host.Outcome State Fault Refusal :=
  .next (complete 0 { s with x := .default })

/-- RGET (R92): the raw right-justified number. -/
def execRget (f : RegField) (s : State) : Host.Outcome State Fault Refusal :=
  .next (complete (BitVec.ofNat 64 (getField s.x f)) s)

/-- RSET (R93 to R98). -/
def execRset (f : RegField) (psc : Prescaler) (value : Dword) (s : State) : Host.Outcome State Fault Refusal :=
  .next (complete 0 { s with x := rsetWords f value.toNat psc s.x })

/-- RWORD (R99). -/
def execRword (a : Reg) (s : State) : Host.Outcome State Fault Refusal :=
  .next (complete ((readReg s.x a).setWidth 64) s)

/-- RSER (R100): the six words on the word output; nothing is sent to the device. -/
def execRser (s : State) : Host.Outcome State Fault Refusal :=
  .next (driveWords (wireImage s.x) (complete 0 s))

end Sys2Proof.Machine
end

