-- ==== Sys2Proof/Machine/RegisterWords.lean ====
section
/-! DEFINITION. The register words W0 to W5 (30_encoding.md R50 to R56), "as stored, serialized and sent on the wire"
(opcode_table.json). They are data of the Register Set and of the wire, and none of the twelve operations, which "are all the
operations there are" (R76): presented to the block by itself, such a word is `fault IllegalCommand`, since what the encoding
does not assign is "never silently accepted" (92_eei_decisions.md D2; R72, R153). The chip's latches are reached by WWRITE and
PROG "and by nothing else" (R78). All of this is log 2. -/

namespace Sys2Proof.Machine

/-- W0 (R51) by itself: no operation (R76; log 2). -/
def execW0 (_frac : BitVec 12) (_int : BitVec 16) (s : State) : Host.Outcome State Fault Refusal :=
  .next (raise .illegalCommand s)

/-- W1 (R52) by itself: no operation (R76; log 2). -/
def execW1 (_mod _phase : BitVec 12) (_prescaler _phaseAdjust : BitVec 1) (s : State) : Host.Outcome State Fault Refusal :=
  .next (raise .illegalCommand s)

/-- W2 (R53) by itself: no operation (R76; log 2). -/
def execW2 (_counterReset _cpThreeState _powerDown _pdPolarity _ldp _ldf : BitVec 1) (_cpCurrent : BitVec 4)
    (_doubleBuffer : BitVec 1) (_rCounter : BitVec 10) (_rdiv2 _refDoubler : BitVec 1) (_muxout : BitVec 3)
    (_noiseMode : BitVec 2) (s : State) : Host.Outcome State Fault Refusal :=
  .next (raise .illegalCommand s)

/-- W3 (R54) by itself: no operation (R76; log 2). -/
def execW3 (_clockDivider : BitVec 12) (_clockDividerMode : BitVec 2)
    (_csr _chargeCancel _antiBacklashWidth _bandSelectClockMode : BitVec 1) (s : State) : Host.Outcome State Fault Refusal :=
  .next (raise .illegalCommand s)

/-- W4 (R55) by itself: no operation (R76; log 2). -/
def execW4 (_outputPower : BitVec 2) (_rfOutputEnable : BitVec 1) (_auxOutputPower : BitVec 2)
    (_auxOutputEnable _auxOutputSelect _muteTillLock _vcoPowerDown : BitVec 1) (_bandSelectClockDiv : BitVec 8)
    (_rfDividerSelect : BitVec 3) (_feedbackSelect : BitVec 1) (s : State) : Host.Outcome State Fault Refusal :=
  .next (raise .illegalCommand s)

/-- W5 (R56) by itself: no operation (R76; log 2). -/
def execW5 (_lockDetectPin : BitVec 2) (s : State) : Host.Outcome State Fault Refusal :=
  .next (raise .illegalCommand s)

end Sys2Proof.Machine
end

