-- ==== Sys2Proof/Machine/Dispatch.lean ====
section
/-! DEFINITION. One arm per instruction. -/

namespace Sys2Proof.Machine

def exec (i : Instr) (s : State) : Host.Outcome State Fault Refusal :=
  match i with
  | .w0 a b => Sys2Proof.Machine.execW0 a b s
  | .w1 a b c d => Sys2Proof.Machine.execW1 a b c d s
  | .w2 a b c d e f g h k l m n o => Sys2Proof.Machine.execW2 a b c d e f g h k l m n o s
  | .w3 a b c d e f => Sys2Proof.Machine.execW3 a b c d e f s
  | .w4 a b c d e f g h k l => Sys2Proof.Machine.execW4 a b c d e f g h k l s
  | .w5 a => Sys2Proof.Machine.execW5 a s
  | .rsdef => Sys2Proof.Machine.execRsdef s
  | .fget offset widthm1 word => Sys2Proof.Machine.execFget offset widthm1 word s
  | .fset offset widthm1 word value => Sys2Proof.Machine.execFset offset widthm1 word value s
  | .rget f => Sys2Proof.Machine.execRget f s
  | .rset f psc value => Sys2Proof.Machine.execRset f psc value s
  | .rword a => Sys2Proof.Machine.execRword a s
  | .rser => Sys2Proof.Machine.execRser s
  | .pfd ref doubler div2 r => Sys2Proof.Machine.execPfd ref doubler div2 r s
  | .plan ref target modulus path => Sys2Proof.Machine.execPlan ref target modulus path s
  | .fout ref => Sys2Proof.Machine.execFout ref s
  | .wwrite word => Sys2Proof.Machine.execWwrite word s
  | .prog => Sys2Proof.Machine.execProg s

end Sys2Proof.Machine
end

