-- ==== Sys2Proof/Machine/Step.lean ====
section
/-! DEFINITION. One step: the next input the host has presented runs to completion (00_scope.md R5, 20_memory.md R40). -/

namespace Sys2Proof.Machine

/-- Take the next input, decode it by its port, run it. -/
def step (s : State) : Host.Outcome State Fault Refusal :=
  match takeInput s with
  | none => .fault .noOperation
  | some (inp, s') =>
    match decode inp with
    | some i => exec i s'
    | none => withoutInstr inp s'

/-- The state with the bits of an instruction presented as the next input (log 4). -/
def State.withFetchWord (s : State) (nbits w : Nat) : State := { s with inbox := inputOfBits nbits w :: s.inbox }

end Sys2Proof.Machine
end

