-- ==== Sys2Proof/Machine/Asm.lean ====
section
/-! DEFINITION. The spec's own way of writing operations (30_encoding.md R74) and the pseudo-operations of the
configuration surface (R75, 41_regset.md R104), both on top of the twelve operations. -/

namespace Sys2Proof.Machine

/-- The three named modes of the lock-detect pin (R63). -/
inductive LockDetectMode
  | low | digitalLockDetect | high
  deriving DecidableEq, Repr

/-- The named options a caller can set, with their operands as numbers (R104); an operand wider than its field is masked or
clamped by the RSET it becomes. -/
inductive CfgOp
  | doubleBuffer (e : Dword)
  | cpCurrent (c : Dword)
  | pdPolarity (p : Dword)
  | modulus (m : Dword)
  | rCounter (r : Dword)
  | refDoubler (e : Dword)
  | refDiv2 (e : Dword)
  | lockDetectPin (m : Dword)
  | bandSelectClockDiv (d : Dword)
  | rfOutput (e p : Dword)
  | auxOutput (e p : Dword)
  deriving DecidableEq, Repr

/-- The expansion into RSETs (R104). -/
def CfgOp.expand : CfgOp → List Instr
  | .doubleBuffer e => [.rset .doubleBuffer .low e]
  | .cpCurrent c => [.rset .cpCurrent .low c]
  | .pdPolarity p => [.rset .pdPolarity .low p]
  | .modulus m => [.rset .mod .low m]
  | .rCounter r => [.rset .rCounter .low r]
  | .refDoubler e => [.rset .refDoubler .low e]
  | .refDiv2 e => [.rset .rdiv2 .low e]
  | .lockDetectPin m => [.rset .lockDetectPin .low m]
  | .bandSelectClockDiv d => [.rset .bandSelectClockDiv .low d]
  | .rfOutput e p => [.rset .rfOutputEnable .low e, .rset .outputPower .low p]
  | .auxOutput e p => [.rset .auxOutputEnable .low e, .rset .auxOutputPower .low p]

/-! The operands that the names of the enumerated values stand for (R60 to R63). -/

/-- enabled / disabled of DOUBLE_BUFFER, RF_OUTPUT_ENABLE and AUX_OUTPUT_ENABLE (R60). -/
def enableOperand (c : EnumCodes) (enabled : Bool) : Dword := (if enabled then c.enabled else c.disabled).setWidth 64

/-- enabled / disabled of REF_DOUBLER and RDIV2: the code 1 is "settled by the source" (R60). -/
def refEnableOperand (enabled : Bool) : Dword := if enabled then 1 else 0

/-- positive / negative (R62). -/
def polarityOperand (c : EnumCodes) (positive : Bool) : Dword := (if positive then c.pdPositive else c.pdNegative).setWidth 64

/-- The lock-detect pin mode (R63); the code without a name is an operand too (R92, U6). -/
def lockDetectOperand (c : EnumCodes) : LockDetectMode → Dword
  | .low => c.ldPinLow.setWidth 64
  | .digitalLockDetect => c.ldPinDigital.setWidth 64
  | .high => c.ldPinHigh.setWidth 64

/-- A PLAN line: "An omitted `mod=` means `mod=4000` ...; an omitted ref-path mode means `auto`" (R74). -/
def planLine (ref target : Dword) (modulus : Option (BitVec 16)) (path : Option RefPath) : Instr :=
  .plan ref target (modulus.getD (BitVec.ofNat 16 modDefault)) (path.getD .auto)

/-- The name of a field in an operation's text (R57). -/
def fieldName : RegField → String
  | .frac => "FRAC" | .int => "INT" | .mod => "MOD" | .phase => "PHASE" | .prescaler => "PRESCALER"
  | .phaseAdjust => "PHASE_ADJUST" | .counterReset => "COUNTER_RESET" | .cpThreeState => "CP_THREE_STATE"
  | .powerDown => "POWER_DOWN" | .pdPolarity => "PD_POLARITY" | .ldp => "LDP" | .ldf => "LDF"
  | .cpCurrent => "CP_CURRENT" | .doubleBuffer => "DOUBLE_BUFFER" | .rCounter => "R_COUNTER" | .rdiv2 => "RDIV2"
  | .refDoubler => "REF_DOUBLER" | .muxout => "MUXOUT" | .noiseMode => "NOISE_MODE"
  | .clockDivider => "CLOCK_DIVIDER" | .clockDividerMode => "CLOCK_DIVIDER_MODE" | .csr => "CSR"
  | .chargeCancel => "CHARGE_CANCEL" | .antiBacklashWidth => "ANTI_BACKLASH_WIDTH"
  | .bandSelectClockMode => "BAND_SELECT_CLOCK_MODE" | .outputPower => "OUTPUT_POWER"
  | .rfOutputEnable => "RF_OUTPUT_ENABLE" | .auxOutputPower => "AUX_OUTPUT_POWER"
  | .auxOutputEnable => "AUX_OUTPUT_ENABLE" | .auxOutputSelect => "AUX_OUTPUT_SELECT"
  | .muteTillLock => "MUTE_TILL_LOCK" | .vcoPowerDown => "VCO_POWER_DOWN"
  | .bandSelectClockDiv => "BAND_SELECT_CLOCK_DIV" | .rfDividerSelect => "RF_DIVIDER_SELECT"
  | .feedbackSelect => "FEEDBACK_SELECT" | .lockDetectPin => "LOCK_DETECT_PIN"

/-- A number in decimal (R74 allows decimal or `0x` hexadecimal). -/
def dec {w : Nat} (v : BitVec w) : String := toString v.toNat

def bit (b : Bool) : String := if b then "1" else "0"

def pathRecord (doubler div2 : Bool) (r : BitVec 16) : String :=
  "dbl=" ++ bit doubler ++ ", div2=" ++ bit div2 ++ ", r=" ++ dec r

/-- A descriptor in an operation's text: the width, not the width minus one (R71, R74). -/
def descText (offset widthm1 : BitVec 5) : String := "(" ++ dec offset ++ ", " ++ toString (widthm1.toNat + 1) ++ ")"

/-- RSET, with the prescaler operand for INT only (R74). -/
def rsetText (f : RegField) (psc : Prescaler) (v : Dword) : String :=
  "RSET " ++ fieldName f ++ ", " ++ dec v ++
    (if f = .int then (match psc with | .low => ", low" | .high => ", high") else "")

/-- The reference-path mode of a PLAN line (R74). -/
def pathText : RefPath → String
  | .auto => "auto"
  | .manual d h r => "manual(" ++ pathRecord d h r ++ ")"

/-- An operation as R74 writes it; a register word is no operation and has no text. -/
def render : Instr → Option String
  | .w0 .. | .w1 .. | .w2 .. | .w3 .. | .w4 .. | .w5 .. => none
  | .rsdef => some "RSDEF"
  | .fget o w word => some ("FGET " ++ dec word ++ ", " ++ descText o w)
  | .fset o w word v => some ("FSET " ++ dec word ++ ", " ++ descText o w ++ ", " ++ dec v)
  | .rget f => some ("RGET " ++ fieldName f)
  | .rset f psc v => some (rsetText f psc v)
  | .rword a => some ("RWORD " ++ toString a.number)
  | .rser => some "RSER"
  | .pfd ref d h r => some ("PFD " ++ dec ref ++ ", " ++ pathRecord d h r)
  | .plan ref target m path => some ("PLAN " ++ dec ref ++ ", " ++ dec target ++ ", mod=" ++ dec m ++ ", " ++ pathText path)
  | .fout ref => some ("FOUT " ++ dec ref)
  | .wwrite word => some ("WWRITE " ++ dec word)
  | .prog => some "PROG"

end Sys2Proof.Machine
end

