-- ==== Sys2Proof/Safety.lean ====
section
/-! DEFINITION. The terms claims are stated in: legal Register Sets, safe runs, and what an operation leaves alone. -/

namespace Sys2Proof.Machine

/-! ## Reading a field and a latch, in plain arithmetic -/

/-- The number that stands in the bits of a named field of the stored words (R6, R57). -/
def fieldValue (x : Words) (f : RegField) : Nat := (x.get f.desc.reg).toNat / 2 ^ f.desc.offset % 2 ^ f.desc.width

/-- All register numbers. -/
def allRegs : List Reg := [.r0, .r1, .r2, .r3, .r4, .r5]

/-- A register's word with its address in the low three bits, as RWORD has it (R99). -/
def taggedWord (x : Words) (a : Reg) : Word := (x.get a &&& 0xFFFFFFF8#32) ||| BitVec.ofNat 32 a.number

/-- The order of the wire: "R5 first through R0 last" (R38). -/
def wireOrder : List Reg := [.r5, .r4, .r3, .r2, .r1, .r0]

/-- The first `n` words of the wire image as written, and the one after them as failed (R145, R148). -/
def writtenEvents (x : Words) (n : Nat) : List WireEvent := (wireOrder.take n).map fun a => WireEvent.written (taggedWord x a)

def failedEvent (x : Words) (n : Nat) (e : TransportError) : List WireEvent :=
  ((wireOrder.drop n).take 1).map fun a => WireEvent.failed (taggedWord x a) e

/-- One word on the line: w[31:24], w[23:16], w[15:8], w[7:0], then the load-enable pulse (R32, R141). -/
def wordOnLine (w : Word) : List LineEvent :=
  [LineEvent.byte (w.extractLsb' 24 8), LineEvent.byte (w.extractLsb' 16 8), LineEvent.byte (w.extractLsb' 8 8),
   LineEvent.byte (w.extractLsb' 0 8), LineEvent.leAssert, LineEvent.leHold, LineEvent.leDeassert]

/-- The status with the name of a transport error (R143, R151). -/
def statusOfError : TransportError → Status
  | .busError => .busError
  | .pinError => .pinError

/-! ## Legal states -/

/-- What holds of every reachable Register Set (41_regset.md R107; 10_state.md R11, R19; 30_encoding.md R65): the tags
stand, the bits of no field are zero, RF_DIVIDER_SELECT is at most 6. -/
def Words.wf (x : Words) : Bool :=
  allRegs.all (fun a => (x.get a).toNat % 8 == a.number && x.get a &&& a.unassigned == 0) && fieldValue x .rfDividerSelect ≤ 6

/-- The invariant of the machine: a legal Register Set, zero or six words on the word output (R70), and OPEN parameters that
meet their side conditions (92_eei_decisions.md). -/
def State.inv (s : State) : Bool :=
  s.x.wf && (s.wout.length == 0 || s.wout.length == 6) && decide s.params.Valid

/-- The invariants of "any valid Register Set destined for hardware" (10_state.md R27), which the block does not enforce
(R180). PRESCALER is high-range where it holds that code. -/
def validForHardware (c : EnumCodes) (x : Words) : Bool :=
  fieldValue x .frac < fieldValue x .mod && 2 ≤ fieldValue x .mod &&
  (if fieldValue x .prescaler = c.pscHigh.toNat then 75 else 23) ≤ fieldValue x .int &&
  1 ≤ fieldValue x .rCounter && fieldValue x .rCounter ≤ 1023 && fieldValue x .rfDividerSelect ≤ 6 && x.wf

/-! ## Runs -/

/-- `t` is reached from `s` in some number of steps. -/
inductive Reaches : State → State → Prop
  | refl (s : State) : Reaches s s
  | tail {s t u : State} (h : Reaches s t) (hs : step t = .next u) : Reaches s u

/-- Instructions one after another, each from the state the one before left. -/
def execAll : List Instr → State → Host.Outcome State Fault Refusal
  | [], s => .next s
  | i :: is, s =>
    match exec i s with
    | .next t => execAll is t
    | .fault r => .fault r
    | .refused r => .refused r

/-! ## What an operation leaves alone -/

/-- Nothing has happened on the wire: history, chip latches, Resync events, line. -/
structure SameChip (s t : State) : Prop where
  hist : t.hist = s.hist
  dev : t.dev = s.dev
  resyncs : t.resyncs = s.resyncs
  line : t.line = s.line

/-- The inputs still to come and the parameters are as before. -/
structure SameInputs (s t : State) : Prop where
  inbox : t.inbox = s.inbox
  answers : t.answers = s.answers
  params : t.params = s.params

/-- The instruction runs to `status` Ok with this result and leaves these register words, and touches nothing of the chip. -/
def Completes (i : Instr) (s : State) (v : Dword) (x' : Words) : Prop :=
  ∃ t, exec i s = .next t ∧ t.status = .ok ∧ t.result = v ∧ t.x = x' ∧ SameChip s t ∧ SameInputs s t

/-- The machine did not end its last operation in a spec fault: "A claim about the block should take 'no fault occurred' as a
premise or prove it" (R153). -/
def State.noFault (s : State) : Bool := !s.status.isFault

/-- The instruction ends in an error or fault (R157): the status says which, the Register Set, the chip and the inputs are as
before, nothing is said of `result`. -/
def EndsIn (i : Instr) (s : State) (st : Status) : Prop :=
  ∃ t, exec i s = .next t ∧ t.status = st ∧ t.x = s.x ∧ SameChip s t ∧ SameInputs s t

/-- A word is written to the device as WWRITE writes it (R141): on Ok its four bytes and the pulse go out, the latch the tag
selects takes it, tag 0 records a Resync and the history a Written event; on an error that error is the status and the history
takes a Failed event, and how many of the line events went out is not said. The last clause is any state, with any answer.
After a failed write the latches of other tags, and for another tag than 0 the Resync count, are unchanged: log 9. The word
output is empty: log 12. -/
def SendsWord (i : Instr) (w : Word) (s : State) : Prop :=
  (∀ rest, s.answers = Answer.ok :: rest →
    ∃ t, exec i s = .next t ∧ t.status = .ok ∧ t.result = 0 ∧ t.wout = [] ∧ t.x = s.x ∧
      t.hist = s.hist ++ [WireEvent.written w] ∧ t.line = s.line ++ wordOnLine w ∧
      (∀ a, t.dev.get a = if a.number = w.toNat % 8 then w else s.dev.get a) ∧
      t.resyncs = s.resyncs + (if w.toNat % 8 = 0 then 1 else 0) ∧
      t.answers = rest ∧ t.inbox = s.inbox ∧ t.params = s.params) ∧
  (∀ e rest, s.answers = Answer.error e :: rest →
    ∃ t, exec i s = .next t ∧ t.status = statusOfError e ∧ t.wout = [] ∧
      t.x = s.x ∧ t.hist = s.hist ++ [WireEvent.failed w e] ∧ (∃ n, t.line = s.line ++ (wordOnLine w).take n) ∧
      (∀ a, a.number ≠ w.toNat % 8 → t.dev.get a = s.dev.get a) ∧
      (w.toNat % 8 ≠ 0 → t.resyncs = s.resyncs) ∧
      t.answers = rest ∧ t.inbox = s.inbox ∧ t.params = s.params) ∧
  (∃ t, exec i s = .next t ∧
    ((t.status = .ok ∧ t.hist = s.hist ++ [WireEvent.written w]) ∨
     ∃ e, t.status = statusOfError e ∧ t.hist = s.hist ++ [WireEvent.failed w e]))

/-- The instruction is one of the twelve operations (R76), not a register word by itself. -/
def isOperation : Instr → Bool
  | .w0 .. | .w1 .. | .w2 .. | .w3 .. | .w4 .. | .w5 .. => false
  | .rsdef | .fget .. | .fset .. | .rget .. | .rset .. | .rword .. | .rser | .pfd .. | .plan .. | .fout .. | .wwrite ..
  | .prog => true

/-- The twelve fields PLAN writes (42_planner.md R124). -/
def planFields : List RegField :=
  [.frac, .int, .mod, .prescaler, .rfDividerSelect, .feedbackSelect, .ldf, .ldp, .antiBacklashWidth, .rCounter, .rdiv2,
   .refDoubler]

end Sys2Proof.Machine
end

