-- ==== Sys2Proof/Certificates/Slice0/Obligations.lean ====
section
/-! DEFINITION. The statements about the block, from the numbered rules of the spec. Field contents are read here in plain
arithmetic (`fieldValue`), not by the operations the meanings use. `Completes` and `EndsIn` (Safety.lean) hold the frame of
an operation: its latches, the Register Set after it, nothing on the chip's side, nothing of the inputs. -/

open Sys2Proof Sys2Proof.Machine

/-! ## The Bitfield Codec (40_codec.md) -/

/-- R82: FGET returns the field's bits right-justified; a descriptor over the top of the word is BadDescriptor. -/
def Obligations.FgetAnswersFieldValue : Prop :=
  ∀ (o m : BitVec 5) (word : Word) (s : State),
    (o.toNat + (m.toNat + 1) ≤ 32 →
      Completes (.fget o m word) s (BitVec.ofNat 64 (word.toNat / 2 ^ o.toNat % 2 ^ (m.toNat + 1))) s.x) ∧
    (32 < o.toNat + (m.toNat + 1) → EndsIn (.fget o m word) s .badDescriptor)

/-- R83: FSET returns the word with only that field's bits replaced by the low bits of the value. -/
def Obligations.FsetReplacesOnlyFieldBits : Prop :=
  ∀ (o m : BitVec 5) (word : Word) (value : Dword) (s : State),
    (o.toNat + (m.toNat + 1) ≤ 32 →
      ∃ v, Completes (.fset o m word value) s v s.x ∧
        ∀ i, v.getLsbD i =
          if o.toNat ≤ i ∧ i < o.toNat + (m.toNat + 1) then value.getLsbD (i - o.toNat) else word.getLsbD i) ∧
    (32 < o.toNat + (m.toNat + 1) → EndsIn (.fset o m word value) s .badDescriptor)

/-- R84: FGET after FSET returns the value masked to the width, for the operations and for every natural value. -/
def Obligations.CodecRoundTrip : Prop :=
  ∀ (o m : BitVec 5) (word : Word) (s s' : State), o.toNat + (m.toNat + 1) ≤ 32 →
    (∀ value : Dword, ∃ v, Completes (.fset o m word value) s v s.x ∧
      Completes (.fget o m (v.setWidth 32)) s' (BitVec.ofNat 64 (value.toNat % 2 ^ (m.toNat + 1))) s'.x) ∧
    (∀ n : Nat, (fieldGet (fieldSet word o.toNat (m.toNat + 1) n) o.toNat (m.toNat + 1)).toNat = n % 2 ^ (m.toNat + 1))

/-- R85: FSET leaves the bits outside the field, and a descriptor whose in-word mask does not intersect reads and writes
independently of it. -/
def Obligations.CodecFrame : Prop :=
  ∀ (o m o' m' : BitVec 5) (word : Word) (v u : Dword) (s : State),
    o.toNat + (m.toNat + 1) ≤ 32 → o'.toNat + (m'.toNat + 1) ≤ 32 →
    ∃ r, Completes (.fset o m word v) s r s.x ∧
      (r.setWidth 32 &&& ~~~(BitVec.ofNat 32 (2 ^ (m.toNat + 1) - 1) <<< o.toNat)) =
        (word &&& ~~~(BitVec.ofNat 32 (2 ^ (m.toNat + 1) - 1) <<< o.toNat)) ∧
      ((BitVec.ofNat 32 (2 ^ (m.toNat + 1) - 1) <<< o.toNat) &&& (BitVec.ofNat 32 (2 ^ (m'.toNat + 1) - 1) <<< o'.toNat) = 0 →
        (∃ g, Completes (.fget o' m' (r.setWidth 32)) s g s.x ∧ Completes (.fget o' m' word) s g s.x) ∧
        (∃ a b, Completes (.fset o' m' (r.setWidth 32) u) s a s.x ∧ Completes (.fset o' m' word u) s b s.x ∧
          Completes (.fset o m (b.setWidth 32) v) s a s.x))

/-- R86: a second FSET of the same field wins, and writing back what a field holds changes nothing. -/
def Obligations.CodecOverwrites : Prop :=
  ∀ (o m : BitVec 5) (word : Word) (u v : Dword) (s : State), o.toNat + (m.toNat + 1) ≤ 32 →
    (∃ a b, Completes (.fset o m word u) s a s.x ∧ Completes (.fset o m (a.setWidth 32) v) s b s.x ∧
      Completes (.fset o m word v) s b s.x) ∧
    (∃ g, Completes (.fget o m word) s g s.x ∧ Completes (.fset o m word g) s (word.setWidth 64) s.x)

/-- R87: FSET of a named field never changes the address tag. -/
def Obligations.NamedFieldsKeepAddressTag : Prop :=
  ∀ (f : RegField) (word : Word) (v : Dword) (s : State),
    ∃ r, Completes (.fset (BitVec.ofNat 5 f.desc.offset) (BitVec.ofNat 5 (f.desc.width - 1)) word v) s r s.x ∧
      r.toNat % 8 = word.toNat % 8

/-! ## The encodings (30_encoding.md) -/

/-- R57: the 36 rows of the field table, as (fid, register, offset, width) in the order of the table; the identifier names its
field. R58 (a) to (e): how many fields each register has, that they do not overlap, and where they lie. -/
def Obligations.FieldTableProperties : Prop :=
  (RegField.all.map fun f => (f, f.fid.toNat, f.desc.reg.number, f.desc.offset, f.desc.width)) =
    [(RegField.frac, 0, 0, 3, 12), (RegField.int, 1, 0, 15, 16)] ++
    [(RegField.mod, 2, 1, 3, 12), (RegField.phase, 3, 1, 15, 12), (RegField.prescaler, 4, 1, 27, 1),
     (RegField.phaseAdjust, 5, 1, 28, 1)] ++
    [(RegField.counterReset, 6, 2, 3, 1), (RegField.cpThreeState, 7, 2, 4, 1), (RegField.powerDown, 8, 2, 5, 1),
     (RegField.pdPolarity, 9, 2, 6, 1), (RegField.ldp, 10, 2, 7, 1), (RegField.ldf, 11, 2, 8, 1),
     (RegField.cpCurrent, 12, 2, 9, 4), (RegField.doubleBuffer, 13, 2, 13, 1), (RegField.rCounter, 14, 2, 14, 10),
     (RegField.rdiv2, 15, 2, 24, 1), (RegField.refDoubler, 16, 2, 25, 1), (RegField.muxout, 17, 2, 26, 3),
     (RegField.noiseMode, 18, 2, 29, 2)] ++
    [(RegField.clockDivider, 19, 3, 3, 12), (RegField.clockDividerMode, 20, 3, 15, 2), (RegField.csr, 21, 3, 18, 1),
     (RegField.chargeCancel, 22, 3, 21, 1), (RegField.antiBacklashWidth, 23, 3, 22, 1),
     (RegField.bandSelectClockMode, 24, 3, 23, 1)] ++
    [(RegField.outputPower, 25, 4, 3, 2), (RegField.rfOutputEnable, 26, 4, 5, 1), (RegField.auxOutputPower, 27, 4, 6, 2),
     (RegField.auxOutputEnable, 28, 4, 8, 1), (RegField.auxOutputSelect, 29, 4, 9, 1), (RegField.muteTillLock, 30, 4, 10, 1),
     (RegField.vcoPowerDown, 31, 4, 11, 1), (RegField.bandSelectClockDiv, 32, 4, 12, 8), (RegField.rfDividerSelect, 33, 4, 20, 3),
     (RegField.feedbackSelect, 34, 4, 23, 1)] ++
    [(RegField.lockDetectPin, 35, 5, 22, 2)] ∧
  (∀ f : RegField, RegField.ofFid f.fid = some f) ∧
  RegField.all.length = 36 ∧ RegField.all.Nodup ∧
  allRegs.map (fun a => (RegField.all.filter fun f => f.desc.reg == a).length) = [2, 4, 13, 6, 10, 1] ∧
  (RegField.all.all fun f => 3 ≤ f.desc.offset && f.desc.offset + f.desc.width ≤ 31 && f.desc.width ≤ 16) = true ∧
  (RegField.all.all fun f => RegField.all.all fun g =>
    f == g || f.desc.reg != g.desc.reg || decide (f.desc.offset + f.desc.width ≤ g.desc.offset) ||
      decide (g.desc.offset + g.desc.width ≤ f.desc.offset)) = true ∧
  RegField.int.desc.width = 16

/-- R51 to R57: where a register holds a word of its format, each named field of the field table reads as the operand the
format puts there. -/
def Obligations.NamedFieldsStandInTheirFormats : Prop :=
  ∀ x : Words,
    (∀ frac int, x.r0 = wordW0 frac int → fieldValue x .frac = frac.toNat ∧ fieldValue x .int = int.toNat) ∧
    (∀ m phase psc adj, x.r1 = wordW1 m phase psc adj →
      fieldValue x .mod = m.toNat ∧ fieldValue x .phase = phase.toNat ∧ fieldValue x .prescaler = psc.toNat ∧
      fieldValue x .phaseAdjust = adj.toNat) ∧
    (∀ a b c d e f g h i j k l m, x.r2 = wordW2 a b c d e f g h i j k l m →
      fieldValue x .counterReset = a.toNat ∧ fieldValue x .cpThreeState = b.toNat ∧ fieldValue x .powerDown = c.toNat ∧
      fieldValue x .pdPolarity = d.toNat ∧ fieldValue x .ldp = e.toNat ∧ fieldValue x .ldf = f.toNat ∧
      fieldValue x .cpCurrent = g.toNat ∧ fieldValue x .doubleBuffer = h.toNat ∧ fieldValue x .rCounter = i.toNat ∧
      fieldValue x .rdiv2 = j.toNat ∧ fieldValue x .refDoubler = k.toNat ∧ fieldValue x .muxout = l.toNat ∧
      fieldValue x .noiseMode = m.toNat) ∧
    (∀ a b c d e f, x.r3 = wordW3 a b c d e f →
      fieldValue x .clockDivider = a.toNat ∧ fieldValue x .clockDividerMode = b.toNat ∧ fieldValue x .csr = c.toNat ∧
      fieldValue x .chargeCancel = d.toNat ∧ fieldValue x .antiBacklashWidth = e.toNat ∧
      fieldValue x .bandSelectClockMode = f.toNat) ∧
    (∀ a b c d e f g h i j, x.r4 = wordW4 a b c d e f g h i j →
      fieldValue x .outputPower = a.toNat ∧ fieldValue x .rfOutputEnable = b.toNat ∧ fieldValue x .auxOutputPower = c.toNat ∧
      fieldValue x .auxOutputEnable = d.toNat ∧ fieldValue x .auxOutputSelect = e.toNat ∧
      fieldValue x .muteTillLock = f.toNat ∧ fieldValue x .vcoPowerDown = g.toNat ∧
      fieldValue x .bandSelectClockDiv = h.toNat ∧ fieldValue x .rfDividerSelect = i.toNat ∧
      fieldValue x .feedbackSelect = j.toNat) ∧
    (∀ a, x.r5 = wordW5 a → fieldValue x .lockDetectPin = a.toNat)

/-- R51 to R56: each format as a number: every field at its place, the tag, and zeros where no field is assigned. -/
def Obligations.RegisterWordFormats : Prop :=
  (∀ frac int, (wordW0 frac int).toNat = int.toNat * 2 ^ 15 + frac.toNat * 2 ^ 3 + 0) ∧
  (∀ m phase psc adj, (wordW1 m phase psc adj).toNat =
    adj.toNat * 2 ^ 28 + psc.toNat * 2 ^ 27 + phase.toNat * 2 ^ 15 + m.toNat * 2 ^ 3 + 1) ∧
  (∀ a b c d e f g h i j k l m, (wordW2 a b c d e f g h i j k l m).toNat =
    m.toNat * 2 ^ 29 + l.toNat * 2 ^ 26 + k.toNat * 2 ^ 25 + j.toNat * 2 ^ 24 + i.toNat * 2 ^ 14 + h.toNat * 2 ^ 13 +
      g.toNat * 2 ^ 9 + f.toNat * 2 ^ 8 + e.toNat * 2 ^ 7 + d.toNat * 2 ^ 6 + c.toNat * 2 ^ 5 + b.toNat * 2 ^ 4 +
      a.toNat * 2 ^ 3 + 2) ∧
  (∀ a b c d e f, (wordW3 a b c d e f).toNat =
    f.toNat * 2 ^ 23 + e.toNat * 2 ^ 22 + d.toNat * 2 ^ 21 + c.toNat * 2 ^ 18 + b.toNat * 2 ^ 15 + a.toNat * 2 ^ 3 + 3) ∧
  (∀ a b c d e f g h i j, (wordW4 a b c d e f g h i j).toNat =
    j.toNat * 2 ^ 23 + i.toNat * 2 ^ 20 + h.toNat * 2 ^ 12 + g.toNat * 2 ^ 11 + f.toNat * 2 ^ 10 + e.toNat * 2 ^ 9 +
      d.toNat * 2 ^ 8 + c.toNat * 2 ^ 6 + b.toNat * 2 ^ 5 + a.toNat * 2 ^ 3 + 4) ∧
  (∀ a, (wordW5 a).toNat = a.toNat * 2 ^ 22 + 5)

/-- Decoding undoes encoding, for every well-formed instruction with every operand. -/
def Obligations.DecodeOfEncodeIsIdentity : Prop :=
  ∀ i : Instr, i.wellFormed = true → decode (encode i) = some i

/-- R50 to R56, R19: a register word decodes to exactly the instruction whose word it is; the words that decode are those that
fit the match and mask of a format's row of opcode_table.json: a bit of no field set, or a tag 6 or 7, is none of W0 to W5. -/
def Obligations.WireDecoderFollowsFormats : Prop :=
  ∀ w : Word,
    (∀ i, decodeWireWord w = some i ↔ encode i = .regWord w) ∧
    ((decodeWireWord w).isSome = true ↔
      w &&& 0x80000007 = 0x00000000 ∨ w &&& 0xE0000007 = 0x00000001 ∨ w &&& 0x80000007 = 0x00000002 ∨
      w &&& 0xFF1A0007 = 0x00000003 ∨ w &&& 0xFF000007 = 0x00000004 ∨ w &&& 0xFF3FFFFF = 0x00000005)

/-- R71, R72, R73 with opcode_table.json: which operation a command is, by its row's match and mask and the constraints on the
operand ports, and each operand as a number read from its place in `cw`, `opA`, `opB`, `opC`. No command is a register word.
MODEL'S READING (log 13): a port that stands as "-" in the table of R72 may hold anything. -/
def Obligations.CommandDecoderFollowsOpcodeTable : Prop :=
  ∀ c : Command,
    (decodeCommand c = some .rsdef ↔ c.cw = 0x00000000) ∧
    (∀ o m w, decodeCommand c = some (.fget o m w) ↔
      c.cw &&& 0xFFC00FFF = 0x10000000 ∧ o.toNat = c.cw.toNat / 2 ^ 17 % 32 ∧ m.toNat = c.cw.toNat / 2 ^ 12 % 32 ∧
        w.toNat = c.opA.toNat) ∧
    (∀ o m w v, decodeCommand c = some (.fset o m w v) ↔
      c.cw &&& 0xFFC00FFF = 0x20000000 ∧ o.toNat = c.cw.toNat / 2 ^ 17 % 32 ∧ m.toNat = c.cw.toNat / 2 ^ 12 % 32 ∧
        w.toNat = c.opA.toNat ∧ v = c.opB) ∧
    (∀ f, decodeCommand c = some (.rget f) ↔ c.cw &&& 0xF03FFFFF = 0x30000000 ∧ f.fid.toNat = c.cw.toNat / 2 ^ 22 % 64) ∧
    (∀ f psc v, decodeCommand c = some (.rset f psc v) ↔
      c.cw &&& 0xF03FFFF7 = 0x40000000 ∧ f.fid.toNat = c.cw.toNat / 2 ^ 22 % 64 ∧
        (psc = .high ↔ c.cw.toNat / 2 ^ 3 % 2 = 1) ∧ (psc = .high → f = .int) ∧ v = c.opA) ∧
    (∀ a, decodeCommand c = some (.rword a) ↔ c.cw &&& 0xFFFFFFF8 = 0x50000000 ∧ a.number = c.cw.toNat % 8) ∧
    (decodeCommand c = some .rser ↔ c.cw = 0x60000000) ∧
    (∀ ref d h r, decodeCommand c = some (.pfd ref d h r) ↔
      c.cw = 0x70000000 ∧ ref = c.opA ∧ r.toNat = c.opC.toNat / 2 ^ 16 % 2 ^ 16 ∧ d.toNat = c.opC.toNat / 2 ^ 32 % 2 ∧
        h.toNat = c.opC.toNat / 2 ^ 33 % 2 ∧ c.opC.toNat % 2 ^ 16 = 0 ∧ c.opC.toNat / 2 ^ 34 = 0) ∧
    (∀ ref target m, decodeCommand c = some (.plan ref target m .auto) ↔
      c.cw = 0x80000000 ∧ ref = c.opA ∧ target = c.opB ∧ m.toNat = c.opC.toNat) ∧
    (∀ ref target m d h r, decodeCommand c = some (.plan ref target m (.manual d h r)) ↔
      c.cw = 0x80000000 ∧ ref = c.opA ∧ target = c.opB ∧ m.toNat = c.opC.toNat % 2 ^ 16 ∧
        r.toNat = c.opC.toNat / 2 ^ 16 % 2 ^ 16 ∧ d.toNat = c.opC.toNat / 2 ^ 32 % 2 ∧
        h.toNat = c.opC.toNat / 2 ^ 33 % 2 ∧ c.opC.toNat / 2 ^ 34 = 1) ∧
    (∀ ref, decodeCommand c = some (.fout ref) ↔ c.cw = 0x90000000 ∧ ref = c.opA) ∧
    (∀ w, decodeCommand c = some (.wwrite w) ↔ c.cw = 0xA0000000 ∧ w.toNat = c.opA.toNat) ∧
    (decodeCommand c = some .prog ↔ c.cw = 0xB0000000) ∧
    (∀ i, decodeCommand c = some i → isOperation i = true)

/-- A few words written out from the patterns of R51 to R56 and R71 to R73: one per family, their operands all different (a
sanity statement). -/
def Obligations.SpecWordsDecode : Prop :=
  decode (.regWord 0b0_0000000010100001_010001100000_000#32) = some (.w0 1120 161) ∧
  decode (.regWord 0b00000000_1_110_00000000_0_0_0_0_00_0_00_100#32) = some (.w4 0 0 0 0 0 0 0 0 6 1) ∧
  decode (.command { cw := 0b0001_000000_00011_01011_00000000_0_000#32, opA := 0x50A300 }) = some (.fget 3 11 0x50A300) ∧
  decode (.command { cw := 0b0100_000001_00000_00000_00000000_1_000#32, opA := 10 }) = some (.rset .int .high 10) ∧
  decode (.command { cw := 0x80000000, opA := 0x17D7840, opB := 0x3C14DC0, opC := 0x0000000500020FA0 }) =
    some (.plan 25000000 63000000 4000 (.manual true false 2)) ∧
  decode (.command { cw := 0xA0000000, opA := 0x00E00004 }) = some (.wwrite 0x00E00004)

/-! ## The Register Set Model (41_regset.md) -/

/-- R91: RSDEF leaves the default Register Set. -/
def Obligations.RsdefSetsDefault : Prop :=
  ∀ s : State, Completes .rsdef s 0 ⟨0x00000000, 0x00000001, 0x00000002, 0x00000003, 0x00000004, 0x00000005⟩

/-- R92: RGET answers the number in the bits of the field and changes nothing. -/
def Obligations.RgetAnswersFieldValue : Prop :=
  ∀ (f : RegField) (s : State), Completes (.rget f) s (BitVec.ofNat 64 (fieldValue s.x f)) s.x

/-- R93: RSET writes the prepared value into the bits of the field and no other bit of any register. The premise is the
invariant of `StepKeepsInvariant` on the Register Set. -/
def Obligations.RsetWritesFieldBitsOnly : Prop :=
  ∀ (f : RegField) (psc : Prescaler) (v : Dword) (s : State), s.x.wf = true →
    ∃ x', Completes (.rset f psc v) s 0 x' ∧
      ∀ a i, (x'.get a).getLsbD i =
        if a = f.desc.reg ∧ f.desc.offset ≤ i ∧ i < f.desc.offset + f.desc.width then
          (prepare f v.toNat psc).testBit (i - f.desc.offset)
        else (s.x.get a).getLsbD i

/-- R94 to R98, R102: what RGET returns after an RSET: the four clamps, and the plain mask for the other 32 fields. -/
def Obligations.ReadAfterWriteWithClamps : Prop :=
  ∀ (f : RegField) (psc : Prescaler) (v : Dword) (s : State),
    ∃ x', Completes (.rset f psc v) s 0 x' ∧
      ∀ t : State, t.x = x' →
        Completes (.rget f) t
          (BitVec.ofNat 64
            (match f with
            | .rfDividerSelect => min v.toNat 6
            | .rCounter => min (max v.toNat 1) 1023
            | .bandSelectClockDiv => min (max v.toNat 1) 255
            | .int => max v.toNat (match psc with | .low => 23 | .high => 75) % 2 ^ 16
            | g => v.toNat % 2 ^ g.desc.width)) t.x

/-- R103: RSETs of two different fields do not see each other and commute. -/
def Obligations.DifferentFieldsAreIndependent : Prop :=
  ∀ (f g : RegField) (p q : Prescaler) (u v : Dword) (s : State), f ≠ g →
    ∃ xf xg xfg, Completes (.rset f p u) s 0 xf ∧ Completes (.rset g q v) s 0 xg ∧
      (∀ t : State, t.x = xf → Completes (.rset g q v) t 0 xfg ∧
        Completes (.rget g) t (BitVec.ofNat 64 (fieldValue s.x g)) xf) ∧
      (∀ t : State, t.x = xg → Completes (.rset f p u) t 0 xfg)

/-- R99: RWORD answers the register's word with its address in the low three bits. -/
def Obligations.RwordAnswersTaggedWord : Prop :=
  ∀ (a : Reg) (s : State),
    Completes (.rword a) s ((taggedWord s.x a).setWidth 64) s.x

/-- R100, R101: RSER drives the six words R5 first, R0 last, tagged 5, 4, 3, 2, 1, 0, whatever the Register Set holds. -/
def Obligations.RserDrivesWireImage : Prop :=
  ∀ s : State, ∃ t, exec .rser s = .next t ∧ t.status = .ok ∧ t.result = 0 ∧ t.x = s.x ∧ SameChip s t ∧ SameInputs s t ∧
    t.wout = [taggedWord s.x .r5, taggedWord s.x .r4, taggedWord s.x .r3, taggedWord s.x .r2, taggedWord s.x .r1,
      taggedWord s.x .r0] ∧
    t.wout.map (fun w => w.toNat % 8) = [5, 4, 3, 2, 1, 0]

/-- R22, R100: RSER and PROG drive the six words of the wire image on the word output, every other instruction none.
MODEL'S CHOICE (log 12): that a PROG whose writes fail drives its six words too, and that the others drive none. -/
def Obligations.WordOutputOfEachOperation : Prop :=
  ∀ (i : Instr) (s t : State), exec i s = .next t →
    (i = .rser ∨ i = .prog → t.wout = wireOrder.map (taggedWord s.x)) ∧ (i ≠ .rser → i ≠ .prog → t.wout = [])

/-- R104: a configuration option, given its operands as numbers, leaves each in its field in the range the table gives, masked
or clamped; the RSETs all end Ok. Then the operands the names of R60, R62 and R63 stand for, by the parameter ENUM_CODES. -/
def Obligations.ConfigurationOptionsSetTheirFields : Prop :=
  (∀ (op : CfgOp) (s : State), ∃ t, execAll op.expand s = .next t ∧ t.status = .ok ∧ SameChip s t ∧
    (match op with
    | .doubleBuffer e => fieldValue t.x .doubleBuffer = e.toNat % 2
    | .cpCurrent v => fieldValue t.x .cpCurrent = v.toNat % 16
    | .pdPolarity p => fieldValue t.x .pdPolarity = p.toNat % 2
    | .modulus m => fieldValue t.x .mod = m.toNat % 4096
    | .rCounter r => fieldValue t.x .rCounter = min (max r.toNat 1) 1023
    | .refDoubler e => fieldValue t.x .refDoubler = e.toNat % 2
    | .refDiv2 e => fieldValue t.x .rdiv2 = e.toNat % 2
    | .lockDetectPin m => fieldValue t.x .lockDetectPin = m.toNat % 4
    | .bandSelectClockDiv d => fieldValue t.x .bandSelectClockDiv = min (max d.toNat 1) 255
    | .rfOutput e p => fieldValue t.x .rfOutputEnable = e.toNat % 2 ∧ fieldValue t.x .outputPower = p.toNat % 4
    | .auxOutput e p => fieldValue t.x .auxOutputEnable = e.toNat % 2 ∧ fieldValue t.x .auxOutputPower = p.toNat % 4)) ∧
  (∀ (c : EnumCodes) (e : Bool), (enableOperand c e).toNat = (if e then c.enabled else c.disabled).toNat ∧
    (refEnableOperand e).toNat = e.toNat ∧
    (polarityOperand c e).toNat = (if e then c.pdPositive else c.pdNegative).toNat) ∧
  (∀ c : EnumCodes, (lockDetectOperand c .low).toNat = c.ldPinLow.toNat ∧
    (lockDetectOperand c .digitalLockDetect).toNat = c.ldPinDigital.toNat ∧
    (lockDetectOperand c .high).toNat = c.ldPinHigh.toNat)

/-! ## The Frequency Planner (42_planner.md) -/

/-- R110, R111: every outcome of PFD, in the order its checks are made: the range of ref, r = 0 (R112), the ceiling, and the
phase-detector frequency. -/
def Obligations.PfdOutcomesInOrder : Prop :=
  ∀ (ref : Dword) (d h : Bool) (r : BitVec 16) (s : State),
    (ref.toNat < 10000000 ∨ 250000000 ≤ ref.toNat → EndsIn (.pfd ref d h r) s .invalidReferenceFrequency) ∧
    (10000000 ≤ ref.toNat → ref.toNat < 250000000 → r.toNat = 0 → EndsIn (.pfd ref d h r) s .divideByZero) ∧
    (10000000 ≤ ref.toNat → ref.toNat < 250000000 → r.toNat ≠ 0 →
      s.params.pfdMaxInt < ref.toNat * (1 + d.toNat) / r.toNat / (1 + h.toNat) →
      EndsIn (.pfd ref d h r) s .invalidReferenceFrequency) ∧
    (10000000 ≤ ref.toNat → ref.toNat < 250000000 → r.toNat ≠ 0 →
      ref.toNat * (1 + d.toNat) / r.toNat / (1 + h.toNat) ≤ s.params.pfdMaxInt →
      Completes (.pfd ref d h r) s (BitVec.ofNat 64 (ref.toNat * (1 + d.toNat) / r.toNat / (1 + h.toNat))) s.x)

/-- R112: with r in 1..1023 a PFD that ends Ok answers at least 4887 Hz. -/
def Obligations.PfdLowerBound : Prop :=
  ∀ (ref : Dword) (d h : Bool) (r : BitVec 16) (s t : State), 1 ≤ r.toNat → r.toNat ≤ 1023 →
    exec (.pfd ref d h r) s = .next t → t.status = .ok → 4887 ≤ t.result.toNat

/-- R113 to R124: a PLAN whose operands pass every check ends Ok; the divider is the first that brings the target into the
VCO range; the twelve fields hold the derived values; every other field, R5 and every bit of no field stay, and the tags of
R0 to R4 stand. In a legal Register Set (the invariant of `StepKeepsInvariant`) no bit outside the twelve fields changes. -/
def Obligations.PlanWritesTwelveFields : Prop :=
  ∀ (ref target : Dword) (m : BitVec 16) (path : RefPath) (s : State) (d h r : Nat),
    s.params.Valid → 2 ≤ m.toNat → m.toNat ≤ 4095 →
    (s.params.vcoMin + 63) / 64 ≤ target.toNat → target.toNat ≤ s.params.vcoMax →
    10000000 ≤ ref.toNat → ref.toNat < 250000000 →
    (d, h, r) = (match path with
      | .auto => (1, 1, min (max ((ref.toNat + s.params.pfdMaxFrac - 1) / s.params.pfdMaxFrac) 1) 1023)
      | .manual a b c => (a.toNat, b.toNat, min (max c.toNat 1) 1023)) →
    ref.toNat * (1 + d) / r / (1 + h) ≤ s.params.pfdMaxInt →
    ∃ k x', Completes (.plan ref target m path) s 0 x' ∧
      k ≤ 6 ∧ s.params.vcoMin ≤ target.toNat * 2 ^ k ∧ target.toNat * 2 ^ k ≤ s.params.vcoMax ∧
      (∀ j < k, target.toNat * 2 ^ j < s.params.vcoMin) ∧
      (let n := target.toNat * 2 ^ k * m.toNat / (ref.toNat * (1 + d) / r / (1 + h))
       fieldValue x' .frac = n % m.toNat ∧
       fieldValue x' .int = max (n / m.toNat) (if 3600000000 < target.toNat then 75 else 23) % 65536) ∧
      fieldValue x' .mod = m.toNat ∧
      fieldValue x' .prescaler = (if 3600000000 < target.toNat then s.params.codes.pscHigh else s.params.codes.pscLow).toNat ∧
      fieldValue x' .rfDividerSelect = k ∧
      fieldValue x' .feedbackSelect = s.params.codes.fbFundamental.toNat ∧
      fieldValue x' .ldf = s.params.codes.ldfFrac.toNat ∧
      fieldValue x' .ldp = s.params.codes.ldpFrac.toNat ∧
      fieldValue x' .antiBacklashWidth = s.params.codes.abpFrac.toNat ∧
      fieldValue x' .rCounter = r ∧ fieldValue x' .rdiv2 = h ∧ fieldValue x' .refDoubler = d ∧
      (∀ g, g ∉ planFields → fieldValue x' g = fieldValue s.x g) ∧
      x'.r5 = s.x.r5 ∧ (∀ a, x'.get a &&& a.unassigned = s.x.get a &&& a.unassigned) ∧
      (∀ a, a ≠ .r5 → (x'.get a).toNat % 8 = a.number) ∧
      (s.x.wf = true → ∀ a i,
        (∀ f ∈ planFields, ¬(f.desc.reg = a ∧ f.desc.offset ≤ i ∧ i < f.desc.offset + f.desc.width)) →
        (x'.get a).getLsbD i = (s.x.get a).getLsbD i)

/-- R120, R125, R155: the errors of PLAN in the order they are tested, and no error touches the Register Set. -/
def Obligations.PlanErrorsInOrder : Prop :=
  ∀ (ref target : Dword) (m : BitVec 16) (path : RefPath) (s : State),
    (∀ t, exec (.plan ref target m path) s = .next t → t.status ≠ .ok → t.x = s.x) ∧
    (m.toNat < 2 ∨ 4095 < m.toNat → EndsIn (.plan ref target m path) s .badModulus) ∧
    (2 ≤ m.toNat → m.toNat ≤ 4095 →
      target.toNat < (s.params.vcoMin + 63) / 64 ∨ s.params.vcoMax < target.toNat →
      EndsIn (.plan ref target m path) s .invalidOutputFrequency) ∧
    (2 ≤ m.toNat → m.toNat ≤ 4095 → s.params.Valid →
      (s.params.vcoMin + 63) / 64 ≤ target.toNat → target.toNat ≤ s.params.vcoMax →
      (ref.toNat < 10000000 ∨ 250000000 ≤ ref.toNat → EndsIn (.plan ref target m path) s .invalidReferenceFrequency) ∧
      (∀ a b c, path = .manual a b c → 10000000 ≤ ref.toNat → ref.toNat < 250000000 →
        s.params.pfdMaxInt < ref.toNat * (1 + a.toNat) / min (max c.toNat 1) 1023 / (1 + b.toNat) →
        EndsIn (.plan ref target m path) s .invalidReferenceFrequency))

/-- R113 step 3, R116: for any parameters, where no divider up to 64 brings the target into the VCO range, PLAN ends in
InvalidOutputFrequency instead of planning outside it. -/
def Obligations.PlanRejectsCandidateOutsideVco : Prop :=
  ∀ (ref target : Dword) (m : BitVec 16) (path : RefPath) (s : State), 2 ≤ m.toNat → m.toNat ≤ 4095 →
    (∀ k ≤ 6, target.toNat * 2 ^ k < s.params.vcoMin ∨ s.params.vcoMax < target.toNat * 2 ^ k) →
    EndsIn (.plan ref target m path) s .invalidOutputFrequency

/-- R126 (a), (b), (c) and R27: after a PLAN that ends Ok on a legal Register Set the divider is legal, FRAC is below MOD, and
where INT fits its field the Register Set meets all invariants of one destined for hardware. -/
def Obligations.PlannedRegisterSetIsValid : Prop :=
  ∀ (ref target : Dword) (m : BitVec 16) (path : RefPath) (s t : State), s.x.wf = true →
    s.params.codes.pscHigh ≠ s.params.codes.pscLow →
    exec (.plan ref target m path) s = .next t → t.status = .ok →
    (let k := fieldValue t.x .rfDividerSelect
     let f := ref.toNat * (1 + fieldValue t.x .refDoubler) / fieldValue t.x .rCounter / (1 + fieldValue t.x .rdiv2)
     k ≤ 6 ∧ s.params.vcoMin ≤ target.toNat * 2 ^ k ∧ target.toNat * 2 ^ k ≤ s.params.vcoMax ∧
     fieldValue t.x .frac < fieldValue t.x .mod ∧
     (target.toNat * 2 ^ k * m.toNat / f / m.toNat < 65536 → validForHardware s.params.codes t.x = true))

/-- R119: in auto mode the doubler and the divide-by-2 are on, R_COUNTER is the smallest divisor that keeps ref / r at or
below the fractional ceiling, and the ceiling on f_pfd never makes a PLAN fail. -/
def Obligations.AutoPathKeepsFractionalCeiling : Prop :=
  ∀ (ref target : Dword) (m : BitVec 16) (s t : State), s.params.Valid →
    exec (.plan ref target m .auto) s = .next t →
    (t.status = .ok →
      fieldValue t.x .refDoubler = 1 ∧ fieldValue t.x .rdiv2 = 1 ∧ 1 ≤ fieldValue t.x .rCounter ∧
        ref.toNat ≤ fieldValue t.x .rCounter * s.params.pfdMaxFrac ∧
        (∀ r, 1 ≤ r → r < fieldValue t.x .rCounter → r * s.params.pfdMaxFrac < ref.toNat)) ∧
    (t.status = .invalidReferenceFrequency → ref.toNat < 10000000 ∨ 250000000 ≤ ref.toNat)

/-- R127, R128: every outcome of FOUT, in the order its checks are made, and the frequency of the Register Set where all of
them pass. The 64-bit result holds the number where it fits 64 bits, as it does under the default parameters. -/
def Obligations.FoutOutcomesInOrder : Prop :=
  ∀ (ref : Dword) (s : State) (f v : Nat),
    f = ref.toNat * (1 + fieldValue s.x .refDoubler) / fieldValue s.x .rCounter / (1 + fieldValue s.x .rdiv2) →
    v = (fieldValue s.x .int * f + fieldValue s.x .frac * f / fieldValue s.x .mod) / 2 ^ fieldValue s.x .rfDividerSelect →
    (ref.toNat < 10000000 ∨ 250000000 ≤ ref.toNat → EndsIn (.fout ref) s .invalidReferenceFrequency) ∧
    (10000000 ≤ ref.toNat → ref.toNat < 250000000 →
      (fieldValue s.x .rCounter = 0 → EndsIn (.fout ref) s .divideByZero) ∧
      (fieldValue s.x .rCounter ≠ 0 →
        (s.params.pfdMaxInt < f → EndsIn (.fout ref) s .invalidReferenceFrequency) ∧
        (f ≤ s.params.pfdMaxInt →
          (fieldValue s.x .mod = 0 → EndsIn (.fout ref) s .divideByZero) ∧
          (fieldValue s.x .mod ≠ 0 →
            (v < (s.params.vcoMin + 63) / 64 ∨ s.params.vcoMax < v → EndsIn (.fout ref) s .invalidOutputFrequency) ∧
            ((s.params.vcoMin + 63) / 64 ≤ v → v ≤ s.params.vcoMax →
              Completes (.fout ref) s (BitVec.ofNat 64 v) s.x)))))

/-- R129: after a PLAN whose target is exactly representable, with INT neither raised nor cut, FOUT answers the target. -/
def Obligations.PlanThenFoutReturnsTarget : Prop :=
  ∀ (ref target : Dword) (m : BitVec 16) (path : RefPath) (s t : State) (f n : Nat),
    exec (.plan ref target m path) s = .next t → t.status = .ok →
    f = ref.toNat * (1 + fieldValue t.x .refDoubler) / fieldValue t.x .rCounter / (1 + fieldValue t.x .rdiv2) →
    n = target.toNat * 2 ^ fieldValue t.x .rfDividerSelect * m.toNat →
    n % f = 0 → (if 3600000000 < target.toNat then 75 else 23) ≤ n / f / m.toNat → n / f / m.toNat < 65536 →
    Completes (.fout ref) t target t.x

/-- R126 (d): with INT neither raised nor cut, FOUT after PLAN falls short of the target by at least 0 and less than
f_pfd / (modulus * 2^stages) + 2 Hz. -/
def Obligations.PlanErrorWithinChannelStep : Prop :=
  ∀ (ref target : Dword) (m : BitVec 16) (path : RefPath) (s t u : State) (f k : Nat),
    exec (.plan ref target m path) s = .next t → t.status = .ok →
    k = fieldValue t.x .rfDividerSelect →
    f = ref.toNat * (1 + fieldValue t.x .refDoubler) / fieldValue t.x .rCounter / (1 + fieldValue t.x .rdiv2) →
    (if 3600000000 < target.toNat then 75 else 23) ≤ target.toNat * 2 ^ k * m.toNat / f / m.toNat →
    target.toNat * 2 ^ k * m.toNat / f / m.toNat < 65536 →
    exec (.fout ref) t = .next u → u.status = .ok →
    u.result.toNat ≤ target.toNat ∧ (target.toNat - u.result.toNat) * (m.toNat * 2 ^ k) < f + 2 * (m.toNat * 2 ^ k)

/-- R105, R172: an option outside the twelve fields gives the same Register Set before or after a PLAN. -/
def Obligations.StaticOptionsCommuteWithPlan : Prop :=
  ∀ (ref target : Dword) (m : BitVec 16) (path : RefPath) (g : RegField) (p : Prescaler) (v : Dword) (s t : State),
    g ∉ planFields → exec (.plan ref target m path) s = .next t → t.status = .ok →
    ∃ xg x', Completes (.rset g p v) s 0 xg ∧ Completes (.rset g p v) t 0 x' ∧
      (∀ u : State, u.x = xg → u.params = s.params → Completes (.plan ref target m path) u 0 x')

/-- The source's end-to-end scenario (V1 of 95_test_vectors.md) with the default parameters (log 6, log 7). -/
def Obligations.SourceScenario : Prop :=
  Completes (.plan 25000000 63000000 4000 (.manual true true 1)) State.reset 0
    ⟨0x0050A300, 0x00007D01, 0x03004002, 0x00000003, 0x00E00004, 0x00000005⟩ ∧
  ∀ s : State, s.params = Params.default → s.x = ⟨0x0050A300, 0x00007D01, 0x03004002, 0x00000003, 0x00E00004, 0x00000005⟩ →
    Completes (.fout 25000000) s 63000000 s.x

/-! ## The Device Writer and the wire (43_device_writer.md, 20_memory.md) -/

/-- R141, R142, R143: WWRITE of a word tagged 6 or 7 is BadTag and sends nothing; otherwise the Device Writer's answer decides
(`SendsWord`, Safety.lean): on Ok the four bytes, most significant first, and the pulse go out, the latch the tag selects takes
the word (R33), tag 0 records a Resync (R33) and the history a Written event (R148); on an error that error is the status and
the history takes a Failed event; and some answer always comes. MODEL'S READING (log 9): that after a failed write the latches
of other tags and, for a tag other than 0, the Resync count are unchanged, and that some of the line events went out. MODEL'S
CHOICE (log 12): that the word output is empty. -/
def Obligations.WwriteFollowsDeviceWriter : Prop :=
  ∀ (w : Word) (s : State),
    (6 ≤ w.toNat % 8 → EndsIn (.wwrite w) s .badTag) ∧ (w.toNat % 8 < 6 → SendsWord (.wwrite w) w s)

/-- R144, R22: a PROG whose six writes succeed sends the wire image, R5 first and R0 last, four bytes and a pulse each, and
drives it on the word output; the chip's latches then hold the register words, and one Resync is recorded. -/
def Obligations.ProgSendsWireImage : Prop :=
  ∀ (s : State) (rest : List Answer), s.answers = List.replicate 6 Answer.ok ++ rest →
    ∃ t, exec .prog s = .next t ∧ t.status = .ok ∧ t.result = 6 ∧ t.x = s.x ∧
      t.wout = wireOrder.map (taggedWord s.x) ∧
      t.hist = s.hist ++ writtenEvents s.x 6 ∧
      t.line = s.line ++ wireOrder.flatMap (fun a => wordOnLine (taggedWord s.x a)) ∧
      (∀ a, t.dev.get a = taggedWord s.x a) ∧ t.resyncs = s.resyncs + 1 ∧
      t.answers = rest ∧ t.inbox = s.inbox ∧ t.params = s.params

/-- R145: PROG stops at the first failure: the words before it are written, it is in doubt, the ones after it are never sent,
the error comes back as it came and `result` counts the words written. MODEL'S READING (log 9): that the write in doubt leaves
the latches of the words not sent and, before the sixth word, the Resync count, and puts the first n of its line events, for
some n, on the line. -/
def Obligations.ProgStopsAtFirstFailure : Prop :=
  ∀ (s : State) (i : Nat) (e : TransportError) (rest : List Answer), i < 6 →
    s.answers = List.replicate i Answer.ok ++ Answer.error e :: rest →
    ∃ t, exec .prog s = .next t ∧ t.status = statusOfError e ∧ t.result = BitVec.ofNat 64 i ∧ t.x = s.x ∧
      t.hist = s.hist ++ writtenEvents s.x i ++ failedEvent s.x i e ∧
      (∃ n, t.line = s.line ++ (wireOrder.take i).flatMap (fun a => wordOnLine (taggedWord s.x a)) ++
        ((wireOrder.drop i).take 1).flatMap (fun a => (wordOnLine (taggedWord s.x a)).take n)) ∧
      (∀ a, a.number < 5 - i → t.dev.get a = s.dev.get a) ∧ (∀ a, 5 - i < a.number → t.dev.get a = taggedWord s.x a) ∧
      (i < 5 → t.resyncs = s.resyncs) ∧ t.answers = rest ∧ t.inbox = s.inbox ∧ t.params = s.params

/-- R147: whatever the Device Writer answers, PROG ends Ok with six Written events, or in an error with i Written events and
one Failed; the Register Set is never written. -/
def Obligations.ProgHistoryGrowth : Prop :=
  ∀ s : State, ∃ t, exec .prog s = .next t ∧ t.x = s.x ∧
    ((t.status = .ok ∧ t.hist = s.hist ++ writtenEvents s.x 6) ∨
     (∃ i < 6, ∃ e, t.status = statusOfError e ∧ t.hist = s.hist ++ writtenEvents s.x i ++ failedEvent s.x i e))

/-- R76, R72: the register words W0 to W5 as instructions are none of the twelve operations. MODEL'S READING (log 2, from D2):
presented by itself such a word is `fault IllegalCommand`: nothing is sent, no latch and no register changes. -/
def Obligations.RegisterWordsAreNoOperations : Prop :=
  ∀ s : State,
    (∀ frac int, EndsIn (.w0 frac int) s .illegalCommand) ∧
    (∀ m phase psc adj, EndsIn (.w1 m phase psc adj) s .illegalCommand) ∧
    (∀ a b c d e f g h i j k l m, EndsIn (.w2 a b c d e f g h i j k l m) s .illegalCommand) ∧
    (∀ a b c d e f, EndsIn (.w3 a b c d e f) s .illegalCommand) ∧
    (∀ a b c d e f g h i j, EndsIn (.w4 a b c d e f g h i j) s .illegalCommand) ∧
    (∀ a, EndsIn (.w5 a) s .illegalCommand)

/-- R148: the wire history is appended to by WWRITE and PROG and by nothing else, never reordered and never shortened (a reset
input keeps it: log 18). -/
def Obligations.HistoryIsAppendOnly : Prop :=
  ∀ s t : State, step s = .next t →
    (∃ l, t.hist = s.hist ++ l) ∧
    (t.hist ≠ s.hist → ∃ inp rest, s.inbox = inp :: rest ∧
      (decode inp = some .prog ∨ ∃ w, decode inp = some (.wwrite w)))

/-- R30, R78: the device latch space is reached only by WWRITE and PROG through the Device Writer. A step of anything else (a
register word by itself, log 2; a reset input, log 18), and a step that puts no event in the wire history, changes no latch,
records no Resync and puts nothing on the line. -/
def Obligations.ChipReachedOnlyThroughDeviceWriter : Prop :=
  ∀ s t : State, step s = .next t →
    (t.hist = s.hist → SameChip s t) ∧
    (∀ inp rest, s.inbox = inp :: rest → decode inp ≠ some .prog → (∀ w, decode inp ≠ some (.wwrite w)) → SameChip s t)

/-- R31, R22: what the chip and the wire hold, and what the latches held before, have no influence on what an operation
answers, writes or sends: the history, the line and the Resync count grow by the same. After an error or a fault, where R22
and R157 leave `result` any value, this is the MODEL'S CHOICE (log 10): its free value is drawn by a counter, not from the chip
or the old latch; so are the line and the Resync of a write that failed (log 9). -/
def Obligations.OperationsDoNotReadTheChip : Prop :=
  ∀ (i : Instr) (s t : State) (st : Status) (v : Dword) (wo : List Word) (l : List LineEvent) (h : List WireEvent)
    (d : Words) (n : Nat), exec i s = .next t →
    ∃ t', exec i { s with status := st, result := v, wout := wo, line := l, hist := h, dev := d, resyncs := n } = .next t' ∧
      t'.x = t.x ∧ t'.status = t.status ∧ t'.result = t.result ∧ t'.wout = t.wout ∧
      t'.answers = t.answers ∧ t'.inbox = t.inbox ∧ t'.params = t.params ∧
      (∃ evs, t.hist = s.hist ++ evs ∧ t'.hist = h ++ evs) ∧ (∃ evs, t.line = s.line ++ evs ∧ t'.line = l ++ evs) ∧
      (∃ k, t.resyncs = s.resyncs + k ∧ t'.resyncs = n + k)

/-! ## Errors and faults (60_exceptions.md) -/

/-- R156, R153: an operation that does not end Ok leaves the Register Set as it was, and unless the transport failed also the
wire and the chip; WWRITE and PROG never write the Register Set. -/
def Obligations.ErrorsLeaveRegisterSet : Prop :=
  ∀ (i : Instr) (s t : State), exec i s = .next t →
    (t.status ≠ .ok → t.x = s.x ∧ (t.status ≠ .busError → t.status ≠ .pinError → SameChip s t)) ∧
    ((∃ w, i = .wwrite w) ∨ i = .prog → t.x = s.x)

/-- R151: the ten codes of the status port. -/
def Obligations.StatusCodes : Prop :=
  Status.ok.code = 0x00 ∧ Status.invalidReferenceFrequency.code = 0x01 ∧ Status.invalidOutputFrequency.code = 0x02 ∧
  Status.busError.code = 0x03 ∧ Status.pinError.code = 0x04 ∧ Status.illegalCommand.code = 0x80 ∧
  Status.badDescriptor.code = 0x81 ∧ Status.badModulus.code = 0x82 ∧ Status.divideByZero.code = 0x83 ∧
  Status.badTag.code = 0x84 ∧ ∀ st : Status, st.isFault = true ↔ 128 ≤ st.code.toNat

/-- R151, its last column: which operations end in which error or fault. IllegalCommand is the decoder's; of the instructions
only a register word by itself ends in it (log 2). -/
def Obligations.ErrorsComeFromTheirOperations : Prop :=
  ∀ (i : Instr) (s t : State), exec i s = .next t →
    match t.status, i with
    | .ok, _ => True
    | .invalidReferenceFrequency, .pfd .. | .invalidReferenceFrequency, .plan .. | .invalidReferenceFrequency, .fout .. => True
    | .invalidOutputFrequency, .plan .. | .invalidOutputFrequency, .fout .. => True
    | .busError, .wwrite _ | .busError, .prog | .pinError, .wwrite _ | .pinError, .prog => True
    | .illegalCommand, i => isOperation i = false
    | .badDescriptor, .fget .. | .badDescriptor, .fset .. => True
    | .badModulus, .plan .. => True
    | .divideByZero, .pfd .. | .divideByZero, .fout .. => True
    | .badTag, .wwrite _ => True
    | _, _ => False

/-- R153: spec faults arise in the listed situations only. A register word by itself is the decoder's IllegalCommand (log 2). -/
def Obligations.SpecFaultsOnlyWhereListed : Prop :=
  ∀ (i : Instr) (s t : State), exec i s = .next t → t.noFault = false →
    match i with
    | .fget o m _ => t.status = .badDescriptor ∧ 32 < o.toNat + (m.toNat + 1)
    | .fset o m _ _ => t.status = .badDescriptor ∧ 32 < o.toNat + (m.toNat + 1)
    | .pfd _ _ _ r => t.status = .divideByZero ∧ r.toNat = 0
    | .plan _ _ m _ => t.status = .badModulus ∧ (m.toNat < 2 ∨ 4095 < m.toNat)
    | .fout _ => t.status = .divideByZero ∧ (fieldValue s.x .rCounter = 0 ∨ fieldValue s.x .mod = 0)
    | .wwrite w => t.status = .badTag ∧ 6 ≤ w.toNat % 8
    | i => t.status = .illegalCommand ∧ isOperation i = false

/-- R72, R153: a command that matches no operation ends in IllegalCommand; nothing else changes but that it is taken. -/
def Obligations.UnmatchedCommandIsIllegal : Prop :=
  ∀ (c : Command) (rest : List Input) (s : State), s.inbox = .command c :: rest → decodeCommand c = none →
    ∃ t, step s = .next t ∧ t.status = .illegalCommand ∧ t.status.code = 0x80 ∧ t.x = s.x ∧ SameChip s t ∧ t.inbox = rest ∧
      t.answers = s.answers ∧ t.params = s.params

/-- R12: the Register Set is written by RSDEF, RSET and PLAN only. -/
def Obligations.OnlyThreeOperationsWriteRegisters : Prop :=
  ∀ (i : Instr) (s t : State), exec i s = .next t → t.x ≠ s.x →
    i = .rsdef ∨ (∃ f p v, i = .rset f p v) ∨ (∃ ref target m path, i = .plan ref target m path)

/-! ## Steps, reset, invariants -/

/-- A step runs the instruction its next input decodes to, with that input taken and nothing else changed before. -/
def Obligations.StepRunsDecodedInstruction : Prop :=
  ∀ (inp : Input) (rest : List Input) (i : Instr) (s : State), s.inbox = inp :: rest → decode inp = some i →
    step s = exec i { s with inbox := rest }

/-- The end of a run (R186). MODEL'S CHOICE (log 5): where the host has presented nothing more, the machine stops. -/
def Obligations.StepStopsWithoutInput : Prop :=
  ∀ s : State, s.inbox = [] → step s = .fault .noOperation

/-- R72, R153, R78. MODEL'S READING (log 2, log 17, from D2): every word presented by itself, of one of the six formats or of
none, whatever its tag, is IllegalCommand; it is taken, and nothing else changes. -/
def Obligations.WordByItselfIsIllegal : Prop :=
  ∀ (w : Word) (rest : List Input) (s : State), s.inbox = .regWord w :: rest →
    ∃ t, step s = .next t ∧ t.status = .illegalCommand ∧ t.x = s.x ∧ SameChip s t ∧ t.inbox = rest ∧
      t.answers = s.answers ∧ t.params = s.params

/-- R170, R171: the reset input has the effect of RSDEF: default Register Set, status Ok, result 0; nothing goes over the wire.
MODEL'S READING (log 18): a reset in the middle of a run keeps the history, the chip's latches, the Resync count and the line. -/
def Obligations.ResetInputRestoresDefault : Prop :=
  ∀ (rest : List Input) (s : State), s.inbox = .reset :: rest →
    ∃ t, step s = .next t ∧ t.x = ⟨0, 1, 2, 3, 4, 5⟩ ∧ t.status = .ok ∧ t.result = 0 ∧ SameChip s t ∧ t.inbox = rest

/-- R26: after reset, and after RSDEF: the six words, status Ok, result 0; after reset every field reads 0. -/
def Obligations.ResetValues : Prop :=
  State.reset.x = ⟨0x00000000, 0x00000001, 0x00000002, 0x00000003, 0x00000004, 0x00000005⟩ ∧
  State.reset.status.code = 0 ∧ State.reset.result = 0 ∧
  (∀ s : State, Completes .rsdef s 0 State.reset.x) ∧
  ∀ f : RegField, Completes (.rget f) State.reset 0 State.reset.x

/-- R11, R19, R65, R70: every step keeps the invariant: tags, bits of no field, power index, word output, parameters. -/
def Obligations.StepKeepsInvariant : Prop :=
  ∀ s t : State, s.inv = true → step s = .next t → t.inv = true

/-- The state after reset meets the invariant. -/
def Obligations.ResetMeetsInvariant : Prop := State.reset.inv = true

/-- R107: an R_COUNTER or BAND_SELECT_CLOCK_DIV once written is never 0 again before the next RSDEF. -/
def Obligations.WrittenDividersStayNonzero : Prop :=
  ∀ (i : Instr) (s t : State), exec i s = .next t → i ≠ .rsdef →
    (fieldValue s.x .rCounter ≠ 0 → fieldValue t.x .rCounter ≠ 0) ∧
    (fieldValue s.x .bandSelectClockDiv ≠ 0 → fieldValue t.x .bandSelectClockDiv ≠ 0)

/-- R107: from a reset machine that is given any inputs, any answers and any admissible parameters, every Register Set ever
reached is legal. -/
def Obligations.ReachableRegisterSetsAreLegal : Prop :=
  ∀ (inbox : List Input) (answers : List Answer) (p : Params) (t : State), p.Valid →
    Reaches { State.reset with inbox := inbox, answers := answers, params := p } t → t.x.wf = true
end

