-- ==== Sys2Proof/Laws/Bits.lean ====
section
/-! SUPPORT. The bit-field operations, once in arithmetic and once bit by bit, and the six words by register number. -/

namespace Sys2Proof.Machine

/-! ## mask, fieldGet, fieldSet -/

theorem two_pow_le_word {n : Nat} (h : n ≤ 32) : 2 ^ n ≤ 4294967296 :=
  le_trans (Nat.pow_le_pow_right (by norm_num) h) (by norm_num)

theorem mask_toNat {n : Nat} (h : n ≤ 32) : (mask n).toNat = 2 ^ n - 1 := by
  have := two_pow_le_word h
  have : 0 < 2 ^ n := by positivity
  simp only [mask, BitVec.toNat_ofNat]
  exact Nat.mod_eq_of_lt (by omega)

@[simp] theorem mask_getLsbD (n i : Nat) : (mask n).getLsbD i = (decide (i < 32) && decide (i < n)) := by
  simp [mask, BitVec.getLsbD_ofNat, Nat.testBit_two_pow_sub_one]

/-- A field read is a division and a remainder. -/
theorem fieldGet_toNat (word : Word) (o : Nat) {n : Nat} (h : n ≤ 32) :
    (fieldGet word o n).toNat = word.toNat / 2 ^ o % 2 ^ n := by
  simp [fieldGet, BitVec.toNat_and, mask_toNat h, Nat.and_two_pow_sub_one_eq_mod, Nat.shiftRight_eq_div_pow]

theorem fieldGet_getLsbD (word : Word) (o n i : Nat) :
    (fieldGet word o n).getLsbD i = (decide (i < 32) && decide (i < n) && word.getLsbD (o + i)) := by
  simp [fieldGet, Bool.and_comm]

/-- A field write, bit by bit: the bits inside the field come from the value, all others stay. -/
theorem fieldSet_getLsbD (word : Word) (o n v i : Nat) :
    (fieldSet word o n v).getLsbD i =
      if o ≤ i ∧ i < o + n ∧ i < 32 then v.testBit (i - o) else word.getLsbD i := by
  by_cases h3 : i < 32
  · simp only [fieldSet, BitVec.getLsbD_or, BitVec.getLsbD_and, BitVec.getLsbD_not, BitVec.getLsbD_shiftLeft, mask_getLsbD,
      BitVec.getLsbD_ofNat]
    by_cases h1 : o ≤ i
    · have b : i - o < 32 := by omega
      by_cases h2 : i < o + n
      · have a : i - o < n := by omega
        have c : ¬ i < o := by omega
        simp [h1, h2, h3, a, b, c]
      · have a : ¬ i - o < n := by omega
        simp [h2, h3, a]
    · have a : i < o := by omega
      simp [h1, h3, a]
  · have hge : 32 ≤ i := by omega
    simp [h3, BitVec.getLsbD_of_ge _ i hge]

/-- Two descriptors that share no bit of a word. -/
def Apart (o n o' n' : Nat) : Prop := o + n ≤ o' ∨ o' + n' ≤ o

theorem fieldGet_fieldSet_same (word : Word) {o n : Nat} (v : Nat) (h : o + n ≤ 32) :
    fieldGet (fieldSet word o n v) o n = BitVec.ofNat 32 (v % 2 ^ n) := by
  apply BitVec.eq_of_getLsbD_eq
  intro i hi
  rw [fieldGet_getLsbD, fieldSet_getLsbD, BitVec.getLsbD_ofNat, Nat.testBit_mod_two_pow]
  by_cases hn : i < n
  · have h1 : o + i < o + n := by omega
    have h2 : o + i < 32 := by omega
    simp [hi, hn, h1, h2]
  · simp [hn]

theorem fieldGet_fieldSet_apart (word : Word) {o n o' n' : Nat} (v : Nat) (h : Apart o n o' n') :
    fieldGet (fieldSet word o n v) o' n' = fieldGet word o' n' := by
  apply BitVec.eq_of_getLsbD_eq
  intro i hi
  rw [fieldGet_getLsbD, fieldGet_getLsbD, fieldSet_getLsbD]
  by_cases hn : i < n'
  · rw [if_neg]
    unfold Apart at h
    omega
  · simp [hn]

theorem fieldSet_comm (word : Word) {o n o' n' : Nat} (v u : Nat) (h : Apart o n o' n') :
    fieldSet (fieldSet word o n v) o' n' u = fieldSet (fieldSet word o' n' u) o n v := by
  apply BitVec.eq_of_getLsbD_eq
  intro i hi
  unfold Apart at h
  simp only [fieldSet_getLsbD]
  split_ifs <;> first | rfl | omega

theorem fieldSet_fieldSet (word : Word) (o n u v : Nat) :
    fieldSet (fieldSet word o n u) o n v = fieldSet word o n v := by
  apply BitVec.eq_of_getLsbD_eq
  intro i hi
  simp only [fieldSet_getLsbD]
  split_ifs <;> rfl

/-! ## Six words by register number -/

@[simp] theorem get_set_same (x : Words) (a : Reg) (v : Word) : (x.set a v).get a = v := by cases a <;> rfl

theorem get_set_other (x : Words) {a b : Reg} (v : Word) (h : b ≠ a) : (x.set a v).get b = x.get b := by
  cases a <;> cases b <;> first | rfl | exact absurd rfl h

theorem words_ext {x y : Words} (h : ∀ a, x.get a = y.get a) : x = y := by
  obtain ⟨a0, a1, a2, a3, a4, a5⟩ := x
  obtain ⟨b0, b1, b2, b3, b4, b5⟩ := y
  have := h .r0; have := h .r1; have := h .r2; have := h .r3; have := h .r4; have := h .r5
  simp_all [Words.get]

/-! ## The hardwired tag -/

theorem withTag_getLsbD (a : Reg) (v : Word) (i : Nat) :
    (withTag a v).getLsbD i = if i < 3 then a.tag.getLsbD i else v.getLsbD i := by
  by_cases hi : i < 32
  · cases a <;> interval_cases i <;> simp [withTag, Reg.tag, Reg.number]
  · have hge : 32 ≤ i := by omega
    have h3 : ¬ i < 3 := by omega
    simp [h3, BitVec.getLsbD_of_ge _ i hge]

@[simp] theorem readReg_writeReg_same (a : Reg) (v : Word) (x : Words) : readReg (writeReg a v x) a = withTag a v := by
  simp only [readReg, writeReg, get_set_same]
  apply BitVec.eq_of_getLsbD_eq
  intro i hi
  simp only [withTag_getLsbD]
  split_ifs <;> rfl

theorem readReg_writeReg_other {a b : Reg} (v : Word) (x : Words) (h : b ≠ a) : readReg (writeReg a v x) b = readReg x b := by
  simp [readReg, writeReg, get_set_other x _ h]

/-! ## Named fields -/

/-- Every named field lies above the tag and below bit 31 (R58). -/
theorem desc_bounds (f : RegField) : 3 ≤ f.desc.offset ∧ 1 ≤ f.desc.width ∧ f.desc.offset + f.desc.width ≤ 31 := by
  cases f <;> decide

/-- "No two fields of one register share a bit" (R58). -/
theorem desc_apart {f g : RegField} (h : f ≠ g) (hr : f.desc.reg = g.desc.reg) :
    Apart f.desc.offset f.desc.width g.desc.offset g.desc.width := by
  unfold Apart
  revert h hr
  cases f <;> cases g <;> decide

/-- The bits of a field are those of the stored word: the hardwired tag is outside every field. -/
theorem fieldGet_readReg (x : Words) (f : RegField) :
    fieldGet (readReg x f.desc.reg) f.desc.offset f.desc.width = fieldGet (x.get f.desc.reg) f.desc.offset f.desc.width := by
  apply BitVec.eq_of_getLsbD_eq
  intro i hi
  have := desc_bounds f
  simp only [fieldGet_getLsbD, readReg, withTag_getLsbD]
  rw [if_neg (by omega)]

/-- Reading a field is the arithmetic of `fieldValue`. -/
theorem getField_eq_fieldValue (x : Words) (f : RegField) : getField x f = fieldValue x f := by
  have := desc_bounds f
  rw [getField, fieldGet_readReg, fieldGet_toNat _ _ (by omega), fieldValue]

theorem fieldValue_lt (x : Words) (f : RegField) : fieldValue x f < 2 ^ f.desc.width :=
  Nat.mod_lt _ (by positivity)

theorem getField_setField_same (x : Words) (f : RegField) (v : Nat) : getField (setField f v x) f = v % 2 ^ f.desc.width := by
  have hb := desc_bounds f
  have hw : fieldGet (withTag f.desc.reg (fieldSet (readReg x f.desc.reg) f.desc.offset f.desc.width v)) f.desc.offset
      f.desc.width = fieldGet (fieldSet (readReg x f.desc.reg) f.desc.offset f.desc.width v) f.desc.offset f.desc.width := by
    apply BitVec.eq_of_getLsbD_eq
    intro i hi
    simp only [fieldGet_getLsbD, withTag_getLsbD]
    rw [if_neg (by omega)]
  have hlt : v % 2 ^ f.desc.width < 4294967296 :=
    lt_of_lt_of_le (Nat.mod_lt _ (by positivity)) (two_pow_le_word (by omega))
  rw [getField, setField, readReg_writeReg_same, hw, fieldGet_fieldSet_same _ _ (by omega), BitVec.toNat_ofNat]
  exact Nat.mod_eq_of_lt hlt

theorem getField_setField_other (x : Words) {f g : RegField} (v : Nat) (h : f ≠ g) : getField (setField f v x) g = getField x g := by
  by_cases hr : g.desc.reg = f.desc.reg
  · have hb := desc_bounds g
    have ha := desc_apart h hr.symm
    have hw : fieldGet (withTag f.desc.reg (fieldSet (readReg x f.desc.reg) f.desc.offset f.desc.width v)) g.desc.offset
        g.desc.width = fieldGet (fieldSet (readReg x f.desc.reg) f.desc.offset f.desc.width v) g.desc.offset g.desc.width := by
      apply BitVec.eq_of_getLsbD_eq
      intro i hi
      simp only [fieldGet_getLsbD, withTag_getLsbD]
      rw [if_neg (by omega)]
    rw [getField, setField, hr, readReg_writeReg_same, hw, fieldGet_fieldSet_apart _ _ ha, getField, hr]
  · rw [getField, setField, readReg_writeReg_other _ _ hr, getField]

/-- What a field write leaves, bit by bit: the tag, the field's bits, and everything else as it was. -/
theorem setField_getLsbD (x : Words) (f : RegField) (v : Nat) (a : Reg) (i : Nat) :
    ((setField f v x).get a).getLsbD i =
      if a = f.desc.reg then
        if i < 3 then a.tag.getLsbD i
        else if f.desc.offset ≤ i ∧ i < f.desc.offset + f.desc.width then v.testBit (i - f.desc.offset)
        else (x.get a).getLsbD i
      else (x.get a).getLsbD i := by
  by_cases ha : a = f.desc.reg
  · subst ha
    have hb := desc_bounds f
    simp only [setField, writeReg, get_set_same, withTag_getLsbD, fieldSet_getLsbD, readReg, if_true]
    split_ifs <;> first | rfl | omega
  · simp [ha, setField, writeReg, get_set_other _ _ ha]

/-- Writes of two different fields commute (R103). -/
theorem setField_comm (x : Words) {f g : RegField} (v u : Nat) (h : f ≠ g) :
    setField g u (setField f v x) = setField f v (setField g u x) := by
  apply words_ext
  intro a
  apply BitVec.eq_of_getLsbD_eq
  intro i hi
  simp only [setField_getLsbD]
  by_cases hr : f.desc.reg = g.desc.reg
  · have ha := desc_apart h hr
    unfold Apart at ha
    split_ifs <;> first | rfl | omega
  · split_ifs <;> simp_all

end Sys2Proof.Machine
end

