-- ==== Sys2Proof/Laws/Decode.lean ====
section
/-! SUPPORT. The sub-fields of a command word come out as they went in. -/

namespace Sys2Proof

/-- The command word bit by bit: the concatenation of R71, at the width its pieces add up to. -/
theorem joinCw_getLsbD (f : CmdFields) (i : Nat) :
    (joinCw f).getLsbD i =
      BitVec.getLsbD (w := 4 + 6 + 5 + 5 + 8 + 1 + 3) (f.opcode ++ f.fid ++ f.offset ++ f.widthm1 ++ f.zero ++ f.psc ++ f.ra) i :=
  rfl

/-- R71: taking the command word apart gives the sub-fields it was put together from. -/
@[simp] theorem splitCw_joinCw (f : CmdFields) : splitCw (joinCw f) = f := by
  obtain ⟨a, b, c, d, e, g, h⟩ := f
  simp only [splitCw, CmdFields.mk.injEq]
  refine ⟨?_, ?_, ?_, ?_, ?_, ?_, ?_⟩ <;>
  · apply BitVec.eq_of_getLsbD_eq
    intro i hi
    simp only [BitVec.getLsbD_extractLsb', hi, joinCw_getLsbD, BitVec.getLsbD_append, decide_true, Bool.true_and]
    split_ifs <;> first | omega | (congr 1; omega)

/-- R71: a command word is made of its sub-fields. -/
@[simp] theorem joinCw_splitCw (cw : Word) : joinCw (splitCw cw) = cw := by
  apply BitVec.eq_of_getLsbD_eq
  intro i hi
  simp only [joinCw_getLsbD, splitCw, BitVec.getLsbD_append, BitVec.getLsbD_extractLsb']
  split_ifs <;>
  · rw [decide_eq_true (by omega), Bool.true_and]
    congr 1
    omega

/-- A word that ends in three given bits has them in [2:0] (R50). -/
theorem extractLsb_append_three {n : Nat} (v : BitVec n) (t : BitVec 3) : (v ++ t).extractLsb' 0 3 = t := by
  apply BitVec.eq_of_getLsbD_eq
  intro i hi
  simp [hi, BitVec.getLsbD_append]

/-- Every field identifier names its own field (R57). -/
@[simp] theorem ofFid_fid (f : RegField) : RegField.ofFid f.fid = some f := by cases f <;> decide

@[simp] theorem ofBits_number (a : Reg) : Reg.ofBits (BitVec.ofNat 3 a.number) = some a := by cases a <;> decide

end Sys2Proof
end

