-- ==== Sys2Proof/Laws/State.lean ====
section
/-! SUPPORT. One lemma per field and update of State, each true by definition. -/

namespace Sys2Proof.Machine

section finishFields

variable (st : Status) (v : Dword) (s : State)

@[simp] theorem finish_x : (finish st v s).x = s.x := rfl
@[simp] theorem finish_status : (finish st v s).status = st := rfl
@[simp] theorem finish_result : (finish st v s).result = v := rfl
@[simp] theorem finish_wout : (finish st v s).wout = [] := rfl
@[simp] theorem finish_hist : (finish st v s).hist = s.hist := rfl
@[simp] theorem finish_dev : (finish st v s).dev = s.dev := rfl
@[simp] theorem finish_resyncs : (finish st v s).resyncs = s.resyncs := rfl
@[simp] theorem finish_line : (finish st v s).line = s.line := rfl
@[simp] theorem finish_inbox : (finish st v s).inbox = s.inbox := rfl
@[simp] theorem finish_answers : (finish st v s).answers = s.answers := rfl
@[simp] theorem finish_params : (finish st v s).params = s.params := rfl
@[simp] theorem finish_free : (finish st v s).free = s.free := rfl

end finishFields

section driveWordsFields

variable (ws : List Word) (s : State)

@[simp] theorem driveWords_wout : (driveWords ws s).wout = ws := rfl
@[simp] theorem driveWords_x : (driveWords ws s).x = s.x := rfl
@[simp] theorem driveWords_status : (driveWords ws s).status = s.status := rfl
@[simp] theorem driveWords_result : (driveWords ws s).result = s.result := rfl
@[simp] theorem driveWords_hist : (driveWords ws s).hist = s.hist := rfl
@[simp] theorem driveWords_dev : (driveWords ws s).dev = s.dev := rfl
@[simp] theorem driveWords_resyncs : (driveWords ws s).resyncs = s.resyncs := rfl
@[simp] theorem driveWords_line : (driveWords ws s).line = s.line := rfl
@[simp] theorem driveWords_inbox : (driveWords ws s).inbox = s.inbox := rfl
@[simp] theorem driveWords_answers : (driveWords ws s).answers = s.answers := rfl
@[simp] theorem driveWords_params : (driveWords ws s).params = s.params := rfl
@[simp] theorem driveWords_free : (driveWords ws s).free = s.free := rfl

end driveWordsFields

section completeFields

variable (v : Dword) (s : State)

@[simp] theorem complete_x : (complete v s).x = s.x := rfl
@[simp] theorem complete_status : (complete v s).status = .ok := rfl
@[simp] theorem complete_result : (complete v s).result = v := rfl
@[simp] theorem complete_wout : (complete v s).wout = [] := rfl
@[simp] theorem complete_hist : (complete v s).hist = s.hist := rfl
@[simp] theorem complete_dev : (complete v s).dev = s.dev := rfl
@[simp] theorem complete_resyncs : (complete v s).resyncs = s.resyncs := rfl
@[simp] theorem complete_line : (complete v s).line = s.line := rfl
@[simp] theorem complete_inbox : (complete v s).inbox = s.inbox := rfl
@[simp] theorem complete_answers : (complete v s).answers = s.answers := rfl
@[simp] theorem complete_params : (complete v s).params = s.params := rfl
@[simp] theorem complete_free : (complete v s).free = s.free := rfl

end completeFields

section raiseFields

variable (st : Status) (s : State)

@[simp] theorem raise_x : (raise st s).x = s.x := rfl
@[simp] theorem raise_status : (raise st s).status = st := rfl
@[simp] theorem raise_result : (raise st s).result = Config.freeResult s.free := rfl
@[simp] theorem raise_wout : (raise st s).wout = [] := rfl
@[simp] theorem raise_hist : (raise st s).hist = s.hist := rfl
@[simp] theorem raise_dev : (raise st s).dev = s.dev := rfl
@[simp] theorem raise_resyncs : (raise st s).resyncs = s.resyncs := rfl
@[simp] theorem raise_line : (raise st s).line = s.line := rfl
@[simp] theorem raise_inbox : (raise st s).inbox = s.inbox := rfl
@[simp] theorem raise_answers : (raise st s).answers = s.answers := rfl
@[simp] theorem raise_params : (raise st s).params = s.params := rfl
@[simp] theorem raise_free : (raise st s).free = s.free + 1 := rfl

end raiseFields

section memWriteFields

variable (w : Word) (s : State)

@[simp] theorem memWrite_x : (memWrite w s).x = s.x := rfl
@[simp] theorem memWrite_status : (memWrite w s).status = s.status := rfl
@[simp] theorem memWrite_result : (memWrite w s).result = s.result := rfl
@[simp] theorem memWrite_wout : (memWrite w s).wout = s.wout := rfl
@[simp] theorem memWrite_hist : (memWrite w s).hist = s.hist := rfl
@[simp] theorem memWrite_dev : (memWrite w s).dev = latchWord w w s.dev := rfl
@[simp] theorem memWrite_resyncs : (memWrite w s).resyncs = s.resyncs + (if triggersResync w then 1 else 0) := rfl
@[simp] theorem memWrite_line : (memWrite w s).line = s.line ++ lineEvents w := rfl
@[simp] theorem memWrite_inbox : (memWrite w s).inbox = s.inbox := rfl
@[simp] theorem memWrite_answers : (memWrite w s).answers = s.answers := rfl
@[simp] theorem memWrite_params : (memWrite w s).params = s.params := rfl
@[simp] theorem memWrite_free : (memWrite w s).free = s.free := rfl

end memWriteFields

section failedWriteFields

variable (w : Word) (s : State)

@[simp] theorem failedWrite_x : (failedWrite w s).x = s.x := rfl
@[simp] theorem failedWrite_status : (failedWrite w s).status = s.status := rfl
@[simp] theorem failedWrite_result : (failedWrite w s).result = s.result := rfl
@[simp] theorem failedWrite_wout : (failedWrite w s).wout = s.wout := rfl
@[simp] theorem failedWrite_hist : (failedWrite w s).hist = s.hist := rfl
@[simp] theorem failedWrite_dev : (failedWrite w s).dev = latchWord w (Config.freeLatch s.free) s.dev := rfl
@[simp] theorem failedWrite_resyncs : (failedWrite w s).resyncs = s.resyncs + (if triggersResync w && Config.freeResync s.free then 1 else 0) := rfl
@[simp] theorem failedWrite_line : (failedWrite w s).line = s.line ++ (lineEvents w).take (Config.freeLineProgress s.free) := rfl
@[simp] theorem failedWrite_inbox : (failedWrite w s).inbox = s.inbox := rfl
@[simp] theorem failedWrite_answers : (failedWrite w s).answers = s.answers := rfl
@[simp] theorem failedWrite_params : (failedWrite w s).params = s.params := rfl
@[simp] theorem failedWrite_free : (failedWrite w s).free = s.free + 1 := rfl

end failedWriteFields

section recordFields

variable (ev : WireEvent) (s : State)

@[simp] theorem record_x : (record ev s).x = s.x := rfl
@[simp] theorem record_status : (record ev s).status = s.status := rfl
@[simp] theorem record_result : (record ev s).result = s.result := rfl
@[simp] theorem record_wout : (record ev s).wout = s.wout := rfl
@[simp] theorem record_hist : (record ev s).hist = s.hist ++ [ev] := rfl
@[simp] theorem record_dev : (record ev s).dev = s.dev := rfl
@[simp] theorem record_resyncs : (record ev s).resyncs = s.resyncs := rfl
@[simp] theorem record_line : (record ev s).line = s.line := rfl
@[simp] theorem record_inbox : (record ev s).inbox = s.inbox := rfl
@[simp] theorem record_answers : (record ev s).answers = s.answers := rfl
@[simp] theorem record_params : (record ev s).params = s.params := rfl
@[simp] theorem record_free : (record ev s).free = s.free := rfl

end recordFields

section hostResetFields

variable (s : State)

@[simp] theorem hostReset_x : (hostReset s).x = .default := rfl
@[simp] theorem hostReset_status : (hostReset s).status = .ok := rfl
@[simp] theorem hostReset_result : (hostReset s).result = 0 := rfl
@[simp] theorem hostReset_wout : (hostReset s).wout = [] := rfl
@[simp] theorem hostReset_hist : (hostReset s).hist = s.hist := rfl
@[simp] theorem hostReset_dev : (hostReset s).dev = s.dev := rfl
@[simp] theorem hostReset_resyncs : (hostReset s).resyncs = s.resyncs := rfl
@[simp] theorem hostReset_line : (hostReset s).line = s.line := rfl
@[simp] theorem hostReset_inbox : (hostReset s).inbox = s.inbox := rfl
@[simp] theorem hostReset_answers : (hostReset s).answers = s.answers := rfl
@[simp] theorem hostReset_params : (hostReset s).params = s.params := rfl
@[simp] theorem hostReset_free : (hostReset s).free = s.free := rfl

end hostResetFields

section StatusCodes

@[simp] theorem isFault_ok : Status.isFault .ok = false := rfl
@[simp] theorem ofTransport_ne_ok (e : TransportError) : Status.ofTransport e ≠ .ok := by cases e <;> decide

end StatusCodes

end Sys2Proof.Machine
end

