-- ==== Sys2Proof/Laws/Ops.lean ====
section
/-! SUPPORT. What each shared operation can do, once: the Register Set stays legal, the Device Writer's two outcomes, the loop
of PROG, ending an operation, writing one word, the latch space. -/

namespace Sys2Proof.Machine

/-! ## Legal Register Sets -/

/-- `Words.wf`, bit by bit. -/
theorem wf_iff (x : Words) :
    x.wf = true ↔ (∀ a, (x.get a).toNat % 8 = a.number) ∧ (∀ a, x.get a &&& a.unassigned = 0) ∧
      fieldValue x .rfDividerSelect ≤ 6 := by
  simp only [Words.wf, allRegs, Bool.and_eq_true, List.all_cons, List.all_nil, beq_iff_eq, decide_eq_true_eq, Bool.and_true]
  constructor
  · rintro ⟨⟨⟨a0, b0⟩, ⟨a1, b1⟩, ⟨a2, b2⟩, ⟨a3, b3⟩, ⟨a4, b4⟩, a5, b5⟩, c⟩
    exact ⟨fun a => by cases a <;> assumption, fun a => by cases a <;> assumption, c⟩
  · rintro ⟨h1, h2, h3⟩
    exact ⟨⟨⟨h1 _, h2 _⟩, ⟨h1 _, h2 _⟩, ⟨h1 _, h2 _⟩, ⟨h1 _, h2 _⟩, ⟨h1 _, h2 _⟩, h1 _, h2 _⟩, h3⟩

theorem default_wf : Words.default.wf = true := by decide

/-- No named field covers a bit of no field (R19, R57). -/
theorem field_bits_assigned (f : RegField) (i : Nat) (h1 : f.desc.offset ≤ i) (h2 : i < f.desc.offset + f.desc.width) :
    f.desc.reg.unassigned.getLsbD i = false := by
  cases f <;> simp only [RegField.desc] at h1 h2 ⊢ <;> interval_cases i <;> decide

/-- The three tag bits as a number. -/
theorem low_bits_eq_of_tag {v : Word} {a : Reg} (h : ∀ i < 3, v.getLsbD i = a.tag.getLsbD i) : v.toNat % 8 = a.number := by
  apply Nat.eq_of_testBit_eq
  intro i
  rw [show (8 : Nat) = 2 ^ 3 from rfl, Nat.testBit_mod_two_pow]
  by_cases hi : i < 3
  · have := h i hi
    simp only [BitVec.getLsbD] at this
    rw [this]
    cases a <;> interval_cases i <;> decide
  · have hlt : a.number < 2 ^ i :=
      lt_of_lt_of_le (show a.number < 2 ^ 3 by cases a <;> decide) (Nat.pow_le_pow_right (by norm_num) (by omega))
    simp [hi, Nat.testBit_lt_two_pow hlt]

theorem tag_of_low_bits {v : Word} {a : Reg} (h : v.toNat % 8 = a.number) (i : Nat) (hi : i < 3) :
    v.getLsbD i = a.tag.getLsbD i := by
  have hm : (v.toNat % 2 ^ 3).testBit i = a.number.testBit i := by rw [show (2 : Nat) ^ 3 = 8 from rfl, h]
  rw [Nat.testBit_mod_two_pow] at hm
  simp only [hi, decide_true, Bool.true_and] at hm
  simp only [BitVec.getLsbD, hm]
  cases a <;> interval_cases i <;> decide

/-- Where the tag stands already, reading a register is reading the stored word (R11). -/
theorem readReg_of_wf {x : Words} (h : x.wf = true) (a : Reg) : readReg x a = x.get a := by
  apply BitVec.eq_of_getLsbD_eq
  intro i hi
  rw [readReg, withTag_getLsbD]
  split_ifs with h3
  · exact (tag_of_low_bits (((wf_iff x).1 h).1 a) i h3).symm
  · rfl

/-- A field write keeps the Register Set legal, RF_DIVIDER_SELECT provided its value is at most 6 (R11, R19, R65). -/
theorem setField_wf {x : Words} {f : RegField} {v : Nat} (h : x.wf = true)
    (hv : f = .rfDividerSelect → v % 8 ≤ 6) : (setField f v x).wf = true := by
  obtain ⟨h1, h2, h3⟩ := (wf_iff x).1 h
  rw [wf_iff]
  refine ⟨fun a => low_bits_eq_of_tag fun i hi => ?_, fun a => ?_, ?_⟩
  · rw [setField_getLsbD]
    split_ifs
    · rfl
    · exact tag_of_low_bits (h1 a) i hi
  · apply BitVec.eq_of_getLsbD_eq
    intro i hi
    have hz : ((x.get a) &&& a.unassigned).getLsbD i = false := by simp [h2 a]
    rw [BitVec.getLsbD_and, setField_getLsbD]
    rw [BitVec.getLsbD_and] at hz
    split_ifs with hr h3i hb
    · subst hr
      have ht : f.desc.reg.unassigned.getLsbD i = false := by cases f.desc.reg <;> interval_cases i <;> decide
      simp [ht]
    · subst hr
      simp [field_bits_assigned f i hb.1 hb.2]
    · simpa using hz
    · simpa using hz
  · rw [← getField_eq_fieldValue] at h3 ⊢
    by_cases hf : f = .rfDividerSelect
    · subst hf
      rw [getField_setField_same]
      exact hv rfl
    · rw [getField_setField_other _ _ hf]
      exact h3

/-- RSET keeps the Register Set legal (R93, R94). -/
theorem rsetWords_wf {x : Words} (f : RegField) (v : Nat) (psc : Prescaler) (h : x.wf = true) : (rsetWords f v psc x).wf = true :=
  setField_wf h fun hf => by
    subst hf
    simp only [prepare, maxStages]
    omega

theorem getField_rsetWords_same (x : Words) (f : RegField) (v : Nat) (psc : Prescaler) :
    getField (rsetWords f v psc x) f = prepare f v psc % 2 ^ f.desc.width := getField_setField_same _ _ _

theorem getField_rsetWords_other (x : Words) {f g : RegField} (v : Nat) (psc : Prescaler) (h : f ≠ g) :
    getField (rsetWords f v psc x) g = getField x g := getField_setField_other _ _ h

/-! ## The Device Writer -/

/-- Taking an answer changes the answers and the free-value counter only. -/
theorem takeAnswer_frame (s : State) :
    (takeAnswer s).2 = { s with answers := (takeAnswer s).2.answers, free := (takeAnswer s).2.free } := by
  unfold takeAnswer
  split <;> rfl

/-- One word write: it succeeds, or it fails with the Device Writer's error (R141). -/
theorem sendWord_cases (w : Word) (s : State) :
    (∃ s1, takeAnswer s = (.ok, s1) ∧ sendWord w s = (.ok, record (.written w) (memWrite w s1))) ∨
    (∃ e s1, takeAnswer s = (.error e, s1) ∧ sendWord w s = (.error e, record (.failed w e) (failedWrite w s1))) := by
  unfold sendWord
  rcases h : takeAnswer s with ⟨a, s1⟩
  cases a with
  | ok => exact .inl ⟨s1, rfl, rfl⟩
  | error e => exact .inr ⟨e, s1, rfl, rfl⟩

/-- A word write leaves the Register Set, the inputs, the parameters and the latches alone and appends one event. -/
theorem sendWord_frame (w : Word) (s : State) :
    (sendWord w s).2.x = s.x ∧ (sendWord w s).2.params = s.params ∧ (sendWord w s).2.inbox = s.inbox ∧
      (sendWord w s).2.wout = s.wout ∧ ∃ ev, (sendWord w s).2.hist = s.hist ++ [ev] := by
  have hf := takeAnswer_frame s
  rcases sendWord_cases w s with ⟨s1, h1, h2⟩ | ⟨e, s1, h1, h2⟩ <;> rw [h1] at hf <;> rw [h2] <;> simp only [] at hf <;>
    rw [hf] <;> simp

/-- The loop of PROG: one more turn. -/
theorem sendWords_cons (w : Word) (ws : List Word) (n : Nat) (s : State) :
    sendWords (w :: ws) n s =
      match sendWord w s with
      | (.ok, s1) => sendWords ws (n + 1) s1
      | (.error e, s1) => finish (.ofTransport e) (BitVec.ofNat 64 n) s1 := rfl

/-- The loop of PROG leaves the Register Set, the inputs and the parameters alone, drives no word output, and only appends
to the history. -/
theorem sendWords_frame (ws : List Word) (n : Nat) (s : State) :
    (sendWords ws n s).x = s.x ∧ (sendWords ws n s).params = s.params ∧ (sendWords ws n s).inbox = s.inbox ∧
      (sendWords ws n s).wout = [] ∧ ∃ l, (sendWords ws n s).hist = s.hist ++ l := by
  induction ws generalizing n s with
  | nil => exact ⟨rfl, rfl, rfl, rfl, [], by simp [sendWords]⟩
  | cons w ws ih =>
    obtain ⟨hx, hp, hi, hw, ev, hh⟩ := sendWord_frame w s
    rw [sendWords_cons]
    rcases h : sendWord w s with ⟨a, s1⟩
    rw [h] at hx hp hi hw hh
    cases a with
    | ok =>
      obtain ⟨gx, gp, gi, gw, l, gh⟩ := ih (n + 1) s1
      exact ⟨gx.trans hx, gp.trans hp, gi.trans hi, gw, ev :: l, by rw [gh, hh]; simp⟩
    | error e => exact ⟨hx, hp, hi, rfl, [ev], hh⟩

/-! ## Ending an operation -/

/-- Concluding writes the latches, the word output and at most the free-value counter; the status is Ok exactly with a value. -/
theorem conclude_cases (r : Except Status Dword) (s : State) :
    (∃ v, r = .ok v ∧ conclude r s = complete v s) ∨ (∃ st, r = .error st ∧ conclude r s = raise st s) := by
  cases r with
  | ok v => exact .inl ⟨v, rfl, rfl⟩
  | error st => exact .inr ⟨st, rfl, rfl⟩

@[simp] theorem conclude_x (r : Except Status Dword) (s : State) : (conclude r s).x = s.x := by cases r <;> rfl
@[simp] theorem conclude_wout (r : Except Status Dword) (s : State) : (conclude r s).wout = [] := by cases r <;> rfl
@[simp] theorem conclude_params (r : Except Status Dword) (s : State) : (conclude r s).params = s.params := by cases r <;> rfl
@[simp] theorem conclude_inbox (r : Except Status Dword) (s : State) : (conclude r s).inbox = s.inbox := by cases r <;> rfl
@[simp] theorem conclude_answers (r : Except Status Dword) (s : State) : (conclude r s).answers = s.answers := by cases r <;> rfl

theorem conclude_sameChip (r : Except Status Dword) (s : State) : SameChip s (conclude r s) := by
  cases r <;> exact ⟨rfl, rfl, rfl, rfl⟩

theorem raise_sameChip (st : Status) (s : State) : SameChip s (raise st s) := ⟨rfl, rfl, rfl, rfl⟩

theorem raise_sameInputs (st : Status) (s : State) : SameInputs s (raise st s) := ⟨rfl, rfl, rfl⟩

/-! ## Writing one word -/

/-- A word write ends in BadTag with nothing sent, in Ok, or in the Device Writer's error (R141 to R143). -/
theorem writeWord_cases (w : Word) (s : State) :
    (latchOf w = none ∧ writeWord w s = raise .badTag s) ∨
    (∃ a s1, latchOf w = some a ∧ takeAnswer s = (.ok, s1) ∧
      writeWord w s = complete 0 (record (.written w) (memWrite w s1))) ∨
    (∃ a e s1, latchOf w = some a ∧ takeAnswer s = (.error e, s1) ∧
      writeWord w s = raise (.ofTransport e) (record (.failed w e) (failedWrite w s1))) := by
  unfold writeWord
  rcases latchOf w with _ | a
  · exact .inl ⟨rfl, rfl⟩
  · rcases sendWord_cases w s with ⟨s1, h1, h2⟩ | ⟨e, s1, h1, h2⟩ <;> rw [h2]
    · exact .inr (.inl ⟨a, s1, rfl, h1, rfl⟩)
    · exact .inr (.inr ⟨a, e, s1, rfl, h1, rfl⟩)

/-- A word write leaves the Register Set, the parameters and the inputs alone, drives no word output, and only appends to the
history. -/
theorem writeWord_frame (w : Word) (s : State) :
    (writeWord w s).x = s.x ∧ (writeWord w s).params = s.params ∧ (writeWord w s).inbox = s.inbox ∧
      (writeWord w s).wout = [] ∧ ∃ l, (writeWord w s).hist = s.hist ++ l := by
  obtain ⟨hx, hp, hi, _, ev, hh⟩ := sendWord_frame w s
  unfold writeWord
  split
  · exact ⟨rfl, rfl, rfl, rfl, [], by simp [raise]⟩
  · rcases h : sendWord w s with ⟨a, s1⟩
    rw [h] at hx hp hi hh
    cases a <;> exact ⟨hx, hp, hi, rfl, [ev], hh⟩

/-! ## The latch space -/

/-- A write of a word changes the latch its tag selects and no other (R33, R34). -/
theorem latchWord_get (w v : Word) (dev : Words) (a : Reg) :
    (latchWord w v dev).get a = if latchOf w = some a then v else dev.get a := by
  unfold latchWord
  rcases h : latchOf w with _ | b
  · simp
  · by_cases hab : a = b
    · subst hab
      simp
    · have : b ≠ a := fun e => hab e.symm
      simp [get_set_other _ _ hab, this]

/-- The latch of a word by its low three bits as a number: none for 6 and 7 (R30, R34). -/
theorem latchOf_iff (w : Word) :
    (latchOf w = none ↔ 6 ≤ w.toNat % 8) ∧ ∀ a, latchOf w = some a ↔ a.number = w.toNat % 8 := by
  have key : ∀ b : BitVec 3, (Reg.ofBits b = none ↔ 6 ≤ b.toNat) ∧ ∀ a, Reg.ofBits b = some a ↔ a.number = b.toNat := by
    intro b
    have : b = 0 ∨ b = 1 ∨ b = 2 ∨ b = 3 ∨ b = 4 ∨ b = 5 ∨ b = 6 ∨ b = 7 := by
      revert b
      decide
    rcases this with h | h | h | h | h | h | h | h <;> subst h <;> refine ⟨by decide, fun a => ?_⟩ <;> cases a <;> decide
  have e : (w.extractLsb' 0 3).toNat = w.toNat % 8 := by simp
  unfold latchOf
  rw [← e]
  exact key _

/-- A register's word selects the latch of its own number (R30, R39). -/
@[simp] theorem latchOf_readReg (x : Words) (a : Reg) : latchOf (readReg x a) = some a := by
  rw [(latchOf_iff _).2]
  exact (low_bits_eq_of_tag fun i hi => by rw [readReg, withTag_getLsbD, if_pos hi]).symm

/-! ## Descriptors -/

/-- A descriptor of the command port fits where it does not run over the top of the word (R81). -/
theorem descriptorFits_iff (o m : BitVec 5) : descriptorFits o.toNat (widthOf m) = true ↔ o.toNat + (m.toNat + 1) ≤ 32 := by
  have := o.isLt
  have := m.isLt
  have key (a b : Nat) : descriptorFits a b = true ↔ 1 ≤ b ∧ b ≤ 32 ∧ a ≤ 31 ∧ a + b ≤ 32 := by
    simp only [descriptorFits, Bool.and_eq_true, decide_eq_true_eq]
    tauto
  rw [key, widthOf]
  omega

/-! ## The validated phase-detector frequency -/

/-- Where `pfdChecked` answers a value, the checks of R111 have passed and the value is the formula's. -/
theorem pfdChecked_ok {p : Params} {ref d r h f : Nat} (hok : pfdChecked p ref d r h = .ok f) :
    refMinHz ≤ ref ∧ ref < refMaxHz ∧ r ≠ 0 ∧ f ≤ p.pfdMaxInt ∧ f = pfdRaw ref d r h := by
  unfold pfdChecked at hok
  split_ifs at hok with h1 h2 h3
  cases hok
  exact ⟨by omega, by omega, h2, by omega, rfl⟩

/-! ## The divider search -/

/-- The search answers the target doubled `stages` times; every smaller number of doublings stays below VCO_MIN_HZ, and it
stops below VCO_MIN_HZ only when no doubling is left (R116). -/
theorem dividerSearch_spec (vcoMin : Nat) (left target made : Nat) :
    ∃ k ≤ left, dividerSearch vcoMin left target made = (target * 2 ^ k, made + k) ∧
      (∀ j < k, target * 2 ^ j < vcoMin) ∧ (vcoMin ≤ target * 2 ^ k ∨ k = left) := by
  induction left generalizing target made with
  | zero => exact ⟨0, le_refl _, by simp [dividerSearch], by simp, .inr rfl⟩
  | succ n ih =>
    unfold dividerSearch
    split_ifs with h
    · obtain ⟨k, hk, he, hj, hl⟩ := ih (target * 2) (made + 1)
      refine ⟨k + 1, by omega, ?_, ?_, ?_⟩
      · rw [he, pow_succ]
        congr 1
        · ring
        · omega
      · intro j hjk
        cases j with
        | zero => simpa using h
        | succ j =>
          have := hj j (by omega)
          rw [pow_succ]
          calc target * (2 ^ j * 2) = target * 2 * 2 ^ j := by ring
            _ < vcoMin := this
      · rcases hl with hl | hl
        · left
          rw [pow_succ]
          calc vcoMin ≤ target * 2 * 2 ^ k := hl
            _ = target * (2 ^ k * 2) := by ring
        · exact .inr (by omega)
    · exact ⟨0, by omega, by simp, by simp, .inl (by simpa using h)⟩

end Sys2Proof.Machine
end

