-- ==== Sys2Proof/Laws/PerInstr.lean ====
section
/-! SUPPORT. One family of statements made per instruction: the encoding of an instruction carries what tells it from the
others, the address tag of a register word (30_encoding.md R50) or the opcode of a command (R72). -/

namespace Sys2Proof.Laws

/-- The address tag of a register-word format, or the opcode of an operation (R50, R72). -/
def selectorOf : Instr → BitVec 3 ⊕ BitVec 4
  | .w0 .. => .inl 0 | .w1 .. => .inl 1 | .w2 .. => .inl 2 | .w3 .. => .inl 3 | .w4 .. => .inl 4 | .w5 .. => .inl 5
  | .rsdef => .inr 0 | .fget .. => .inr 1 | .fset .. => .inr 2 | .rget .. => .inr 3 | .rset .. => .inr 4
  | .rword .. => .inr 5 | .rser => .inr 6 | .pfd .. => .inr 7 | .plan .. => .inr 8 | .fout .. => .inr 9
  | .wwrite .. => .inr 10 | .prog => .inr 11

/-- The same, read from the input. -/
def selectorIn : Input → Option (BitVec 3 ⊕ BitVec 4)
  | .command c => some (.inr (splitCw c.cw).opcode)
  | .regWord w => some (.inl (w.extractLsb' 0 3))
  | .reset => none

namespace Selector

def Statement (i : Instr) : Prop := selectorIn (encode i) = some (selectorOf i)

theorem w0 (a : BitVec 12) (b : BitVec 16) : Statement (.w0 a b) :=
  congrArg (fun t => some (Sum.inl t)) (extractLsb_append_three _ _)
theorem w1 (a b : BitVec 12) (c d : BitVec 1) : Statement (.w1 a b c d) :=
  congrArg (fun t => some (Sum.inl t)) (extractLsb_append_three _ _)
theorem w2 (a b c d e f : BitVec 1) (g : BitVec 4) (h : BitVec 1) (i : BitVec 10) (j k : BitVec 1) (l : BitVec 3) (m : BitVec 2) :
    Statement (.w2 a b c d e f g h i j k l m) := congrArg (fun t => some (Sum.inl t)) (extractLsb_append_three _ _)
theorem w3 (a : BitVec 12) (b : BitVec 2) (c d e f : BitVec 1) : Statement (.w3 a b c d e f) :=
  congrArg (fun t => some (Sum.inl t)) (extractLsb_append_three _ _)
theorem w4 (a : BitVec 2) (b : BitVec 1) (c : BitVec 2) (d e f g : BitVec 1) (h : BitVec 8) (i : BitVec 3) (j : BitVec 1) :
    Statement (.w4 a b c d e f g h i j) := congrArg (fun t => some (Sum.inl t)) (extractLsb_append_three _ _)
theorem w5 (a : BitVec 2) : Statement (.w5 a) := congrArg (fun t => some (Sum.inl t)) (extractLsb_append_three _ _)
theorem rsdef : Statement .rsdef := by simp [Statement, encode, selectorIn, selectorOf]
theorem fget (o w : BitVec 5) (word : Word) : Statement (.fget o w word) :=
  by simp [Statement, encode, selectorIn, selectorOf]
theorem fset (o w : BitVec 5) (word : Word) (v : Dword) : Statement (.fset o w word v) :=
  by simp [Statement, encode, selectorIn, selectorOf]
theorem rget (f : RegField) : Statement (.rget f) := by simp [Statement, encode, selectorIn, selectorOf]
theorem rset (f : RegField) (psc : Prescaler) (v : Dword) : Statement (.rset f psc v) :=
  by simp [Statement, encode, selectorIn, selectorOf]
theorem rword (a : Reg) : Statement (.rword a) := by simp [Statement, encode, selectorIn, selectorOf]
theorem rser : Statement .rser := by simp [Statement, encode, selectorIn, selectorOf]
theorem pfd (ref : Dword) (d h : Bool) (r : BitVec 16) : Statement (.pfd ref d h r) :=
  by simp [Statement, encode, selectorIn, selectorOf]
theorem plan (ref target : Dword) (m : BitVec 16) (p : RefPath) : Statement (.plan ref target m p) :=
  by simp [Statement, encode, selectorIn, selectorOf]
theorem fout (ref : Dword) : Statement (.fout ref) := by simp [Statement, encode, selectorIn, selectorOf]
theorem wwrite (word : Word) : Statement (.wwrite word) := by simp [Statement, encode, selectorIn, selectorOf]
theorem prog : Statement .prog := by simp [Statement, encode, selectorIn, selectorOf]

end Selector

end Sys2Proof.Laws
end

