-- ==== Sys2Proof/Laws/Planner.lean ====
section
/-! SUPPORT. What the planner's parts can do: the reference path, the derivation of the values, the field writes. -/

namespace Sys2Proof.Machine

/-- The reference path's numbers, whichever way they are chosen (R118, R119). -/
theorem refPathSelect_bounds {p : Params} {ref : Nat} {path : RefPath} {d h r : Nat}
    (e : refPathSelect p ref path = (d, h, r)) : d ≤ 1 ∧ h ≤ 1 ∧ 1 ≤ r ∧ r ≤ 1023 := by
  cases path with
  | auto =>
    simp only [refPathSelect, Prod.mk.injEq, clamp, rMin, rMax] at e
    omega
  | manual a b c =>
    simp only [refPathSelect, Prod.mk.injEq, clamp, rMin, rMax] at e
    have := Bool.toNat_le a
    have := Bool.toNat_le b
    omega

/-- Where the derivation answers values, every check has passed and the values are the formulas' (R113 to R121). -/
theorem planCompute_ok {p : Params} {ref target m : Nat} {path : RefPath} {v : PlanValues}
    (h : planCompute p ref target m path = .ok v) :
    ∃ k d hh r f, 2 ≤ m ∧ m ≤ 4095 ∧ (p.vcoMin + 63) / 64 ≤ target ∧ target ≤ p.vcoMax ∧ k ≤ 6 ∧
      p.vcoMin ≤ target * 2 ^ k ∧ target * 2 ^ k ≤ p.vcoMax ∧ (∀ j < k, target * 2 ^ j < p.vcoMin) ∧
      refPathSelect p ref path = (d, hh, r) ∧ pfdChecked p ref d r hh = .ok f ∧
      v = { psc := selectPrescaler target, stages := k, doubler := d, div2 := hh, r := r,
            int := target * 2 ^ k * m / f / m, frac := target * 2 ^ k * m / f % m, modulus := m } := by
  obtain ⟨k, hk, he, hj, hl⟩ := dividerSearch_spec p.vcoMin maxStages target 0
  unfold planCompute at h
  rw [he] at h
  simp only [modMin, modMax, outMinHz, outMaxHz, ceilDiv] at h
  rcases hr : refPathSelect p ref path with ⟨d, hh, r⟩
  rw [hr] at h
  simp only at h
  split_ifs at h
  rcases hp : pfdChecked p ref d r hh with e | f
  · rw [hp] at h
    simp at h
  · rw [hp] at h
    simp only [Except.ok.injEq, Nat.zero_add] at h
    exact ⟨k, d, hh, r, f, by omega, by omega, by omega, by omega, hk, by omega, by omega, hj, rfl, hp, h.symm⟩

/-- A field that is not written keeps its value (R103, R124). -/
theorem getField_applyWrites_other (psc : Prescaler) (ws : List (RegField × Nat)) (x : Words) {g : RegField}
    (h : g ∉ ws.map Prod.fst) : getField (applyWrites psc ws x) g = getField x g := by
  induction ws generalizing x with
  | nil => rfl
  | cons a ws ih =>
    simp only [List.map_cons, List.mem_cons, not_or] at h
    exact (ih _ h.2).trans (getField_rsetWords_other _ _ _ fun e => h.1 e.symm)

/-- A field written once holds the prepared value (R93, R124). -/
theorem getField_applyWrites_mem (psc : Prescaler) (ws : List (RegField × Nat)) (x : Words) {g : RegField} {v : Nat}
    (hn : (ws.map Prod.fst).Nodup) (h : (g, v) ∈ ws) :
    getField (applyWrites psc ws x) g = prepare g v psc % 2 ^ g.desc.width := by
  induction ws generalizing x with
  | nil => cases h
  | cons a ws ih =>
    simp only [List.map_cons, List.nodup_cons] at hn
    rcases List.mem_cons.1 h with rfl | h
    · exact (getField_applyWrites_other _ _ _ hn.1).trans (getField_rsetWords_same _ _ _ _)
    · exact ih _ hn.2 h

theorem applyWrites_wf (psc : Prescaler) (ws : List (RegField × Nat)) {x : Words} (h : x.wf = true) :
    (applyWrites psc ws x).wf = true := by
  induction ws generalizing x with
  | nil => exact h
  | cons w ws ih => exact ih (rsetWords_wf _ _ _ h)

/-- PLAN writes its twelve fields, each once (R124). -/
theorem planWrites_fields (c : EnumCodes) (v : PlanValues) : (planWrites c v).map Prod.fst = planFields := rfl

theorem planFields_nodup : planFields.Nodup := by decide

end Sys2Proof.Machine
end

