-- ==== Sys2Proof/Laws/Step.lean ====
section
/-! SUPPORT. What one instruction and one step can do: the ways PLAN and a step end, and what no instruction touches. -/

namespace Sys2Proof.Machine

/-- PLAN ends in its first error with nothing written, or with all its writes (R113, R125). -/
theorem plan_cases {ref target : Dword} {m : BitVec 16} {path : RefPath} {s t : State}
    (h : exec (.plan ref target m path) s = .next t) :
    (∃ st, planCompute s.params ref.toNat target.toNat m.toNat path = .error st ∧ t = raise st s) ∨
    (∃ v, planCompute s.params ref.toNat target.toNat m.toNat path = .ok v ∧
      t = complete 0 { s with x := applyWrites v.psc (planWrites s.params.codes v) s.x }) := by
  simp only [exec, execPlan] at h
  split at h <;> cases h
  · rename_i st hh
    exact .inl ⟨st, hh, rfl⟩
  · rename_i v hh
    exact .inr ⟨v, hh, rfl⟩

/-- A step takes the next input and runs what it decodes to. -/
theorem step_cases {s t : State} (h : step s = .next t) :
    ∃ inp rest, s.inbox = inp :: rest ∧
      ((∃ i, decode inp = some i ∧ exec i { s with inbox := rest } = .next t) ∨
       (decode inp = none ∧ withoutInstr inp { s with inbox := rest } = .next t)) := by
  unfold step takeInput at h
  rcases hi : s.inbox with _ | ⟨inp, rest⟩ <;> rw [hi] at h
  · simp at h
  · simp only at h
    refine ⟨inp, rest, rfl, ?_⟩
    rcases hd : decode inp with _ | i <;> rw [hd] at h
    · exact .inr ⟨rfl, h⟩
    · exact .inl ⟨i, rfl, h⟩

/-- An input without an instruction answers a next state, leaves parameters and inputs, drives no word output, touches nothing
of the chip, and keeps the Register Set legal. -/
theorem withoutInstr_frame (inp : Input) (s : State) :
    ∃ t, withoutInstr inp s = .next t ∧ t.params = s.params ∧ t.inbox = s.inbox ∧ t.wout = [] ∧
      SameChip s t ∧ (s.x.wf = true → t.x.wf = true) := by
  cases inp with
  | command c => exact ⟨_, rfl, rfl, rfl, rfl, ⟨rfl, rfl, rfl, rfl⟩, id⟩
  | regWord w => exact ⟨_, rfl, rfl, rfl, rfl, ⟨rfl, rfl, rfl, rfl⟩, id⟩
  | reset => exact ⟨_, rfl, rfl, rfl, rfl, ⟨rfl, rfl, rfl, rfl⟩, fun _ => default_wf⟩

/-- What holds of every instruction: parameters and inputs stay, the word output is empty or the wire image, the history is
only appended to, and the Register Set stays legal. -/
theorem exec_frame {i : Instr} {s t : State} (he : exec i s = .next t) :
    t.params = s.params ∧ t.inbox = s.inbox ∧ (t.wout = [] ∨ t.wout = wireImage s.x) ∧ (∃ l, t.hist = s.hist ++ l) ∧
      (s.x.wf = true → t.x.wf = true) := by
  cases i
  case wwrite w =>
    cases he
    obtain ⟨hx, hp, hi, hw, hh⟩ := writeWord_frame w s
    exact ⟨hp, hi, .inl hw, hh, fun h => by rw [hx]; exact h⟩
  case prog =>
    cases he
    obtain ⟨hx, hp, hi, _, hh⟩ := sendWords_frame (wireImage s.x) 0 s
    exact ⟨hp, hi, .inr rfl, hh, fun hw => by rw [driveWords_x, hx]; exact hw⟩
  case plan =>
    rcases plan_cases he with ⟨st, _, rfl⟩ | ⟨v, _, rfl⟩
    · exact ⟨rfl, rfl, .inl rfl, ⟨[], by simp [raise]⟩, id⟩
    · exact ⟨rfl, rfl, .inl rfl, ⟨[], by simp⟩, fun hw => applyWrites_wf _ _ hw⟩
  case rset f p v =>
    cases he
    exact ⟨rfl, rfl, .inl rfl, ⟨[], by simp⟩, fun hw => rsetWords_wf _ _ _ hw⟩
  case rsdef =>
    cases he
    exact ⟨rfl, rfl, .inl rfl, ⟨[], by simp⟩, fun _ => default_wf⟩
  case rser =>
    cases he
    exact ⟨rfl, rfl, .inr rfl, ⟨[], by simp⟩, id⟩
  all_goals
    cases he
    first
    | exact ⟨rfl, rfl, .inl rfl, ⟨[], by simp⟩, id⟩
    | exact ⟨by simp, by simp, .inl (by simp), ⟨[], by simp [(conclude_sameChip _ s).hist]⟩, fun hw => by simpa using hw⟩

/-- The chip's side is touched by WWRITE and PROG and by no other instruction (R30, R78). -/
theorem exec_sameChip {i : Instr} {s t : State} (he : exec i s = .next t) (hw : ∀ w, i ≠ .wwrite w) (hp : i ≠ .prog) :
    SameChip s t := by
  cases i
  case wwrite w => exact absurd rfl (hw w)
  case prog => exact absurd rfl hp
  case plan => rcases plan_cases he with ⟨st, _, rfl⟩ | ⟨v, _, rfl⟩ <;> exact ⟨rfl, rfl, rfl, rfl⟩
  all_goals
    cases he
    first
    | exact conclude_sameChip _ _
    | exact ⟨rfl, rfl, rfl, rfl⟩

end Sys2Proof.Machine
end

