-- ==== Sys2Proof/Tests/Slice0.lean ====
section
/-! SUPPORT. Small checks of the model against the encodings and the vectors the spec prints (95_test_vectors.md), and a
witness for the hypotheses of every obligation that has some. -/

namespace Sys2Proof.Tests

open Sys2Proof.Machine

/-! ## WellFormed: the one check, and the term it refuses -/

theorem test_wellFormed_refuses_psc_on_other_field : (Instr.rset .mod .high 5).wellFormed = false := by decide

theorem test_wellFormed_takes_psc_on_int : (Instr.rset .int .high 5).wellFormed = true := by decide

/-! ## Decoding: one word per constructor, written out from R51 to R56 and R71 to R73 -/

/-- R51: bit 31 zero, INT = 161 in [30:15], FRAC = 1120 in [14:3], tag 000 (the word of V1). -/
theorem test_decode_w0 : decode (.regWord 0b0_0000000010100001_010001100000_000#32) = some (.w0 1120 161) := by decide

/-- R52: PHASE_ADJUST 0, PRESCALER 1, PHASE 5, MOD 4000, tag 001. -/
theorem test_decode_w1 : decode (.regWord 0b000_0_1_000000000101_111110100000_001#32) = some (.w1 4000 5 1 0) := by decide

/-- R53: NOISE_MODE 2, MUXOUT 6, REF_DOUBLER 1, RDIV2 0, R_COUNTER 5, DOUBLE_BUFFER 1, CP_CURRENT 7, LDF 0, LDP 1,
PD_POLARITY 0, POWER_DOWN 1, CP_THREE_STATE 0, COUNTER_RESET 1, tag 010. -/
theorem test_decode_w2 :
    decode (.regWord 0b0_10_110_1_0_0000000101_1_0111_0_1_0_1_0_1_010#32) = some (.w2 1 0 1 0 1 0 7 1 5 0 1 6 2) := by decide

/-- R54: BAND_SELECT_CLOCK_MODE 1, ANTI_BACKLASH_WIDTH 0, CHARGE_CANCEL 1, CSR 1, CLOCK_DIVIDER_MODE 2, CLOCK_DIVIDER 9. -/
theorem test_decode_w3 : decode (.regWord 0b00000000_1_0_1_00_1_0_10_000000001001_011#32) = some (.w3 9 2 1 1 0 1) := by decide

/-- R55: FEEDBACK_SELECT 1, RF_DIVIDER_SELECT 6, BAND_SELECT_CLOCK_DIV 200, VCO_POWER_DOWN 0, MUTE_TILL_LOCK 1,
AUX_OUTPUT_SELECT 0, AUX_OUTPUT_ENABLE 1, AUX_OUTPUT_POWER 2, RF_OUTPUT_ENABLE 1, OUTPUT_POWER 3. -/
theorem test_decode_w4 :
    decode (.regWord 0b00000000_1_110_11001000_0_1_0_1_10_1_11_100#32) = some (.w4 3 1 2 1 0 1 0 200 6 1) := by decide

/-- R56: LOCK_DETECT_PIN 1. -/
theorem test_decode_w5 : decode (.regWord 0b00000000_01_0000000000000000000_101#32) = some (.w5 1) := by decide

/-- R50, R19: a bit of no field is set (bit 31 of R0); tag 6. -/
theorem test_decode_wire_refused :
    decode (.regWord 0b1_0000000010100001_010001100000_000#32) = none ∧ decode (.regWord 6) = none := by decide

theorem test_decode_rsdef : decode (.command { cw := 0 }) = some .rsdef := by decide

/-- Opcode 1, offset 15 in [21:17], width - 1 = 15 in [16:12] (program P5, line 3). -/
theorem test_decode_fget :
    decode (.command { cw := 0b0001_000000_01111_01111_00000000_0_000#32, opA := 0x50A300 }) =
      some (.fget 15 15 0x50A300) := by decide

/-- Opcode 2, offset 3, width - 1 = 11 (program P5, line 1). -/
theorem test_decode_fset :
    decode (.command { cw := 0b0010_000000_00011_01011_00000000_0_000#32, opA := 0, opB := 1120 }) =
      some (.fset 3 11 0 1120) := by decide

/-- Opcode 3, fid 14 = R_COUNTER in [27:22] (program P2, line 9). -/
theorem test_decode_rget : decode (.command { cw := 0b0011_001110_00000_00000_00000000_0_000#32 }) = some (.rget .rCounter) := by
  decide

/-- Opcode 4, fid 1 = INT, psc = 1 in bit 3 (program P2, line 6). -/
theorem test_decode_rset :
    decode (.command { cw := 0b0100_000001_00000_00000_00000000_1_000#32, opA := 10 }) = some (.rset .int .high 10) := by decide

/-- Opcode 5, ra = 2 (program P2, line 10). -/
theorem test_decode_rword : decode (.command { cw := 0b0101_000000_00000_00000_00000000_0_010#32 }) = some (.rword .r2) := by decide

theorem test_decode_rser : decode (.command { cw := 0x60000000 }) = some .rser := by decide

/-- opC: r = 3 in [31:16], doubler in bit 32 set, div2 in bit 33 clear (R73). -/
theorem test_decode_pfd :
    decode (.command { cw := 0x70000000, opA := 25000000, opC := 0x0000000100030000 }) = some (.pfd 25000000 true false 3) := by
  decide

/-- opC of program P1, line 6, and of P3, line 1. -/
theorem test_decode_plan :
    decode (.command { cw := 0x80000000, opA := 0x17D7840, opB := 0x3C14DC0, opC := 0x0000000700010FA0 }) =
      some (.plan 25000000 63000000 4000 (.manual true true 1)) ∧
    decode (.command { cw := 0x80000000, opA := 0x17D7840, opB := 10, opC := 0x0000000000000FA0 }) =
      some (.plan 25000000 10 4000 .auto) := by decide

theorem test_decode_fout : decode (.command { cw := 0x90000000, opA := 0x17D7840 }) = some (.fout 25000000) := by decide

theorem test_decode_wwrite : decode (.command { cw := 0xA0000000, opA := 7 }) = some (.wwrite 7) := by decide

theorem test_decode_prog : decode (.command { cw := 0xB0000000 }) = some .prog := by decide

/-- R72, R73: opcode 12, fid 36, ra 6, psc on another field, a zero bit set, opA too wide, a modulus for PFD, r without the
manual bit. -/
theorem test_decode_command_refused :
    decode (.command { cw := 0xC0000000 }) = none ∧
    decode (.command { cw := 0b0011_100100_00000_00000_00000000_0_000#32 }) = none ∧
    decode (.command { cw := 0x50000006 }) = none ∧
    decode (.command { cw := 0b0100_000010_00000_00000_00000000_1_000#32 }) = none ∧
    decode (.command { cw := 0x60000010 }) = none ∧
    decode (.command { cw := 0xA0000000, opA := 0x100000000 }) = none ∧
    decode (.command { cw := 0x70000000, opC := 1 }) = none ∧
    decode (.command { cw := 0x80000000, opC := 0x10FA0 }) = none := by decide

/-! ## Single steps, with the spec's own vectors (95_test_vectors.md) -/

/-- The state after one command, for a command that answers a next state. -/
def after (c : Command) (s : State) : State :=
  match step { s with inbox := [.command c] } with
  | .next t => t
  | _ => s

/-- A reset state whose Register Set holds these words and whose Device Writer will answer so. -/
def withWords (x : Words) (answers : List Answer := []) : State := { State.reset with x := x, answers := answers }

/-- The Register Set of V1. -/
def v1Words : Words := ⟨0x0050A300, 0x00007D01, 0x03004002, 0x00000003, 0x00E00004, 0x00000005⟩

/-- The Register Set of V44a. -/
def v44Words : Words := ⟨0x00000000, 0x00000321, 0x18028F42, 0x00400003, 0x000C803C, 0x00400005⟩

/-- RSDEF (V10). -/
theorem test_rsdef : (after { cw := 0 } (withWords v44Words)).x = ⟨0, 1, 2, 3, 4, 5⟩ := by decide

/-- FGET: bit 31, and a descriptor over the top of the word (V6, P5 line 6). -/
theorem test_fget_top : (after { cw := 0x103E0000, opA := 0xDEADBEEF } .reset).result = 1 := by decide
theorem test_fget_bad : (after { cw := 0x103C2000, opA := 0x50A300 } .reset).status = .badDescriptor := by decide

/-- FSET: an over-wide value, and the whole word (V7, V5). -/
theorem test_fset_masks : (after { cw := 0x20123000, opA := 0xA5A5A5A5, opB := 0x1C } .reset).result = 0xA5A5B9A5 := by decide
theorem test_fset_whole : (after { cw := 0x2001F000, opA := 0x12345678, opB := 0xDEADBEEF } .reset).result = 0xDEADBEEF := by decide

/-- RGET (V3). -/
theorem test_rget_int : (after { cw := 0x30400000 } (withWords v1Words)).result = 161 := by decide

/-- RSET: the clamp of R_COUNTER and the floor of INT in front of the 16-bit mask (V11, V13). -/
theorem test_rset_clamps : (after { cw := 0x43800000, opA := 5000 } .reset).x.r2 = 0x00FFC002 := by decide
theorem test_rset_int_masks : (after { cw := 0x40400008, opA := 65559 } .reset).x.r0 = 0x000B8000 := by decide

/-- RWORD (P3 line 7). -/
theorem test_rword : (after { cw := 0x50000000 } (withWords v1Words)).result = 0x0050A300 := by decide

/-- RSER (V1). -/
theorem test_rser :
    (after { cw := 0x60000000 } (withWords v1Words)).wout =
      [0x00000005, 0x00E00004, 0x00000003, 0x03004002, 0x00007D01, 0x0050A300] := by decide

/-- PFD: truncation, and the range of ref before r = 0 (V41b, V41g). -/
theorem test_pfd_truncates :
    (after { cw := 0x70000000, opA := 25000000, opC := 0x0000000300030000 } .reset).result = 8333333 := by decide
theorem test_pfd_range_first : (after { cw := 0x70000000, opA := 5 } .reset).status = .invalidReferenceFrequency := by decide

/-- PLAN: the fields it leaves (V44b), and INT beyond 16 bits (V33). -/
theorem test_plan_preserves :
    (after { cw := 0x80000000, opA := 25000000, opB := 63000000, opC := 0x0000000700010FA0 } (withWords v44Words)).x =
      ⟨0x0050A300, 0x00007D01, 0x1B004E42, 0x00000003, 0x00EC803C, 0x00400005⟩ := by decide
theorem test_plan_int_wraps :
    (after { cw := 0x80000000, opA := 10000000, opB := 4400000000, opC := 0x0000000603FF0FA0 } .reset).x.r0 = 0x5E7DEBB0 := by
  decide

/-- FOUT (V1), and MOD = 0 (P2 line 11). -/
theorem test_fout : (after { cw := 0x90000000, opA := 25000000 } (withWords v1Words)).result = 63000000 := by decide
theorem test_fout_mod_zero :
    (after { cw := 0x90000000, opA := 25000000 } (withWords ⟨0x000B8000, 1, 0x00FFCE02, 3, 0x006FF004, 5⟩)).status =
      .divideByZero := by decide

/-- WWRITE: the bytes and the pulse (V45a), and tag 7 (P4 line 2). -/
theorem test_wwrite_bytes :
    (after { cw := 0xA0000000, opA := 0x00E00004 } (withWords v1Words [.ok])).line =
      [.byte 0x00, .byte 0xE0, .byte 0x00, .byte 0x04, .leAssert, .leHold, .leDeassert] := by decide
theorem test_wwrite_bad_tag : (after { cw := 0xA0000000, opA := 7 } .reset).status = .badTag := by decide

/-- PROG: the first failure ends it (V47), and six words go out (V46). -/
theorem test_prog_stops :
    (after { cw := 0xB0000000 } (withWords v1Words [.ok, .ok, .error .busError])).hist =
      [.written 0x00000005, .written 0x00E00004, .failed 0x00000003 .busError] := by decide
theorem test_prog_all :
    (after { cw := 0xB0000000 } (withWords v1Words [.ok, .ok, .ok, .ok, .ok, .ok])).dev = v1Words := by decide

/-- PROG leaves its wire image on the word output (R22). -/
theorem test_prog_wout :
    (after { cw := 0xB0000000 } (withWords v1Words [.error .pinError])).wout =
      [0x00000005, 0x00E00004, 0x00000003, 0x03004002, 0x00007D01, 0x0050A300] := by decide

/-- The state after an instruction that answers a next state. -/
def ran (i : Instr) (s : State) : State :=
  match exec i s with
  | .next t => t
  | _ => s

/-- A register word by itself is none of the twelve operations (R76, D2): IllegalCommand, and nothing goes to the chip. -/
theorem test_w0 :
    (ran (.w0 1120 161) (withWords v1Words [.ok])).status = .illegalCommand ∧
    (ran (.w0 1120 161) (withWords v1Words [.ok])).dev = State.reset.dev ∧
    (ran (.w0 1120 161) (withWords v1Words [.ok])).hist = [] := by decide
theorem test_w1 : (ran (.w1 4000 0 0 0) (withWords v1Words [.ok])).status.code = 0x80 := by decide
theorem test_w2 : (ran (.w2 0 0 0 0 0 0 0 0 1 1 1 0 0) (withWords v1Words [.ok])).line = [] := by decide
theorem test_w3 : (ran (.w3 0 0 0 0 0 0) (withWords v1Words [.ok])).x = v1Words := by decide
theorem test_w4 : (ran (.w4 0 0 0 0 0 0 0 0 6 1) (withWords v1Words [.ok])).dev.r4 = 0 := by decide
theorem test_w5 : (ran (.w5 1) (withWords v1Words [.ok])).answers = [.ok] := by decide

/-- Words of two kinds: without a port the command is read (log 3). -/
theorem test_bits_of_both_kinds :
    decodeTableWord 32 0x60000000 = some .rser ∧ decode (.regWord 0x60000000) = some (.w0 0 0xC000) ∧
    decodeTableWord 32 0x30400000 = some (.rget .int) ∧ decodeTableWord 32 0x50000002 = some (.rword .r2) := by decide

/-- Configuration options take numbers: the unnamed lock-detect code, and an over-wide switch (R104; V15). -/
theorem test_cfg_lock_detect_unnamed :
    (match execAll (CfgOp.lockDetectPin 2).expand .reset with | .next t => t.x.r5 | _ => 0) = 0x00800005 := by decide
theorem test_cfg_double_buffer_masks :
    (match execAll (CfgOp.doubleBuffer 3).expand .reset with | .next t => t.x.r2 | _ => 0) = 0x00002002 := by decide

/-- A command that matches no row (R72). -/
theorem test_illegal_command : (after { cw := 0xF0000000 } .reset).status = .illegalCommand := by decide

/-- The text of R74, as program P1 line 6 and P2 line 6 have it. -/
theorem test_render_plan :
    render (planLine 25000000 63000000 none (some (.manual true true 1))) =
      some "PLAN 25000000, 63000000, mod=4000, manual(dbl=1, div2=1, r=1)" := by decide
theorem test_render_rset : render (.rset .int .high 10) = some "RSET INT, 10, high" := by decide

/-! ## Witnesses: states and operands that meet the hypotheses of an obligation, at the boundary values of its clauses -/

/-- A reset state with these OPEN parameters. -/
def withParams (p : Params) : State := { State.reset with params := p }

/-- The Register Set of V1 with R_COUNTER cleared, and with MOD cleared. -/
def v1NoR : Words := { v1Words with r2 := 0x03000002 }

def v1NoMod : Words := { v1Words with r1 := 0x00000001 }

/-- V1's Register Set with the divider at 1. -/
def v1Undivided : Words := { v1Words with r4 := 4 }

/-- V1's Register Set with BAND_SELECT_CLOCK_DIV written. -/
def v1Band : Words := { v1Words with r4 := 0x00E01004 }

/-- The PLAN of V1. -/
abbrev planV1 : Instr := .plan 25000000 63000000 4000 (.manual true true 1)

theorem witness_FgetAnswersFieldValue :
    (16#5).toNat + ((15#5).toNat + 1) ≤ 32 ∧ 32 < (17#5).toNat + ((15#5).toNat + 1) := by decide
theorem witness_FsetReplacesOnlyFieldBits :
    (0#5).toNat + ((31#5).toNat + 1) ≤ 32 ∧ 32 < (1#5).toNat + ((31#5).toNat + 1) := by decide
theorem witness_CodecRoundTrip : (31#5).toNat + ((0#5).toNat + 1) ≤ 32 := by decide
theorem witness_CodecOverwrites : (0#5).toNat + ((31#5).toNat + 1) ≤ 32 := by decide
theorem witness_CodecFrame :
    (3#5).toNat + ((11#5).toNat + 1) ≤ 32 ∧ (15#5).toNat + ((15#5).toNat + 1) ≤ 32 ∧
    (BitVec.ofNat 32 (2 ^ ((11#5).toNat + 1) - 1) <<< (3#5).toNat) &&&
      (BitVec.ofNat 32 (2 ^ ((15#5).toNat + 1) - 1) <<< (15#5).toNat) = 0 := by decide
theorem witness_DecodeOfEncodeIsIdentity :
    (Instr.rset .int .high 10).wellFormed = true ∧ (Instr.w0 4095 65535).wellFormed = true := by decide
theorem witness_RsetWritesFieldBitsOnly : State.reset.x.wf = true ∧ (withWords v1Words).x.wf = true := by decide
theorem witness_DifferentFieldsAreIndependent : RegField.frac ≠ RegField.int := by decide
theorem witness_WordOutputOfEachOperation :
    (∃ t, exec .rser .reset = .next t) ∧ (∃ t, exec .prog (withWords v1Words [.error .pinError]) = .next t) ∧
    (∃ t, exec (.w5 1) .reset = .next t) ∧ Instr.w5 1 ≠ .rser ∧ Instr.w5 1 ≠ .prog :=
  ⟨⟨_, rfl⟩, ⟨_, rfl⟩, ⟨_, rfl⟩, by decide, by decide⟩

/-- A register holding a word of each format: V1's. -/
theorem witness_NamedFieldsStandInTheirFormats :
    v1Words.r0 = wordW0 1120 161 ∧ v1Words.r1 = wordW1 4000 0 0 0 ∧ v1Words.r2 = wordW2 0 0 0 0 0 0 0 0 1 1 1 0 0 ∧
    v1Words.r3 = wordW3 0 0 0 0 0 0 ∧ v1Words.r4 = wordW4 0 0 0 0 0 0 0 0 6 1 ∧ v1Words.r5 = wordW5 0 := by decide
/-- Each clause at the ends of its range: ref, r = 0, one above the ceiling of the default parameters, and at it. -/
theorem witness_PfdOutcomesInOrder :
    ((9999999#64).toNat < 10000000 ∧ 250000000 ≤ (250000000#64).toNat) ∧
    (10000000 ≤ (10000000#64).toNat ∧ (10000000#64).toNat < 250000000 ∧ (0#16).toNat = 0) ∧
    (10000000 ≤ (90000001#64).toNat ∧ (90000001#64).toNat < 250000000 ∧ (1#16).toNat ≠ 0 ∧
      State.reset.params.pfdMaxInt < (90000001#64).toNat * (1 + false.toNat) / (1#16).toNat / (1 + false.toNat)) ∧
    (10000000 ≤ (249999999#64).toNat ∧ (249999999#64).toNat < 250000000 ∧ (3#16).toNat ≠ 0 ∧
      (249999999#64).toNat * (1 + false.toNat) / (3#16).toNat / (1 + false.toNat) ≤ State.reset.params.pfdMaxInt) ∧
    (90000000#64).toNat * (1 + false.toNat) / (1#16).toNat / (1 + false.toNat) ≤ State.reset.params.pfdMaxInt := by decide
theorem witness_PfdLowerBound :
    1 ≤ (1023#16).toNat ∧ (1023#16).toNat ≤ 1023 ∧
    ∃ t, exec (.pfd 10000000 false true 1023) .reset = .next t ∧ t.status = .ok ∧ t.result = 4887 :=
  ⟨by decide, by decide, _, rfl, by decide, by decide⟩

theorem witness_params_valid : State.reset.params.Valid := by decide

/-- V1, and the ends of the target and modulus ranges, auto and manual; a bit of no field and a bit of the tag of R0, which lie
in none of the twelve fields of a legal Register Set. -/
theorem witness_PlanWritesTwelveFields :
    (State.reset.params.Valid ∧ 2 ≤ (4000#16).toNat ∧ (4000#16).toNat ≤ 4095 ∧
      (State.reset.params.vcoMin + 63) / 64 ≤ (63000000#64).toNat ∧ (63000000#64).toNat ≤ State.reset.params.vcoMax ∧
      10000000 ≤ (25000000#64).toNat ∧ (25000000#64).toNat < 250000000 ∧
      (1, 1, 1) = (true.toNat, true.toNat, min (max (1#16).toNat 1) 1023) ∧
      (25000000#64).toNat * (1 + 1) / 1 / (1 + 1) ≤ State.reset.params.pfdMaxInt) ∧
    (2 ≤ (2#16).toNat ∧ (4095#16).toNat ≤ 4095 ∧ (State.reset.params.vcoMin + 63) / 64 ≤ (34375000#64).toNat ∧
      (4400000000#64).toNat ≤ State.reset.params.vcoMax ∧
      (1, 1, 8) = (1, 1, min (max (((249999999#64).toNat + State.reset.params.pfdMaxFrac - 1) / State.reset.params.pfdMaxFrac) 1)
        1023) ∧
      (249999999#64).toNat * (1 + 1) / 8 / (1 + 1) ≤ State.reset.params.pfdMaxInt) ∧
    State.reset.x.wf = true ∧ (∀ i ∈ [0, 2, 31], ∀ f ∈ planFields,
      ¬(f.desc.reg = .r0 ∧ f.desc.offset ≤ i ∧ i < f.desc.offset + f.desc.width)) := by decide
theorem witness_PlanErrorsInOrder :
    (∃ t, exec (.plan 25000000 10 4000 .auto) .reset = .next t ∧ t.status ≠ .ok) ∧
    ((1#16).toNat < 2 ∧ 4095 < (4096#16).toNat) ∧
    (2 ≤ (2#16).toNat ∧ (2#16).toNat ≤ 4095 ∧ (34374999#64).toNat < (State.reset.params.vcoMin + 63) / 64 ∧
      State.reset.params.vcoMax < (4400000001#64).toNat) ∧
    (State.reset.params.Valid ∧ (State.reset.params.vcoMin + 63) / 64 ≤ (34375000#64).toNat ∧
      (4400000000#64).toNat ≤ State.reset.params.vcoMax ∧ (9999999#64).toNat < 10000000 ∧ 250000000 ≤ (250000000#64).toNat) ∧
    (10000000 ≤ (90000001#64).toNat ∧ (90000001#64).toNat < 250000000 ∧
      State.reset.params.pfdMaxInt <
        (90000001#64).toNat * (1 + false.toNat) / min (max (0#16).toNat 1) 1023 / (1 + false.toNat)) :=
  ⟨⟨_, rfl, by decide⟩, by decide⟩

/-- A VCO range narrower than an octave: the target lies in the output range, no divider brings it into the VCO range. -/
theorem witness_PlanRejectsCandidateOutsideVco :
    2 ≤ (4000#16).toNat ∧ (4000#16).toNat ≤ 4095 ∧
    ∀ k ≤ 6, (2000000000#64).toNat * 2 ^ k < (withParams { Params.default with vcoMax := 2300000000 }).params.vcoMin ∨
      (withParams { Params.default with vcoMax := 2300000000 }).params.vcoMax < (2000000000#64).toNat * 2 ^ k := by decide
theorem witness_PlannedRegisterSetIsValid :
    State.reset.x.wf = true ∧ State.reset.params.codes.pscHigh ≠ State.reset.params.codes.pscLow ∧
    (∃ t, exec planV1 .reset = .next t ∧ t.status = .ok) ∧
    (63000000#64).toNat * 2 ^ 6 * (4000#16).toNat / 25000000 / (4000#16).toNat < 65536 :=
  ⟨by decide, by decide, ⟨_, rfl, by decide⟩, by decide⟩
theorem witness_AutoPathKeepsFractionalCeiling :
    State.reset.params.Valid ∧ (∃ t, exec (.plan 249999999 63000000 4000 .auto) .reset = .next t ∧ t.status = .ok) ∧
    ∃ t, exec (.plan 9999999 63000000 4000 .auto) .reset = .next t ∧ t.status = .invalidReferenceFrequency :=
  ⟨by decide, ⟨_, rfl, by decide⟩, _, rfl, by decide⟩
/-- The clause in which FOUT answers, on V1's Register Set. -/
theorem witness_FoutOutcomesInOrder_answers :
    let s := withWords v1Words
    25000000 = (25000000#64).toNat * (1 + fieldValue s.x .refDoubler) / fieldValue s.x .rCounter / (1 + fieldValue s.x .rdiv2) ∧
    63000000 = (fieldValue s.x .int * 25000000 + fieldValue s.x .frac * 25000000 / fieldValue s.x .mod) /
      2 ^ fieldValue s.x .rfDividerSelect ∧
    10000000 ≤ (25000000#64).toNat ∧ (25000000#64).toNat < 250000000 ∧ fieldValue s.x .rCounter ≠ 0 ∧
    25000000 ≤ s.params.pfdMaxInt ∧ fieldValue s.x .mod ≠ 0 ∧ (s.params.vcoMin + 63) / 64 ≤ 63000000 ∧
    63000000 ≤ s.params.vcoMax := by decide

/-- The other clauses: ref out of range at both ends, R_COUNTER 0, the ceiling, MOD 0, a frequency below and one above the range. -/
theorem witness_FoutOutcomesInOrder :
    ((9999999#64).toNat < 10000000 ∧ 250000000 ≤ (250000000#64).toNat) ∧
    fieldValue (withWords v1NoR).x .rCounter = 0 ∧
    (fieldValue (withWords v1Words).x .rCounter ≠ 0 ∧
      (withWords v1Words).params.pfdMaxInt <
        (249999999#64).toNat * (1 + fieldValue v1Words .refDoubler) / fieldValue v1Words .rCounter /
          (1 + fieldValue v1Words .rdiv2)) ∧
    (fieldValue (withWords v1NoMod).x .rCounter ≠ 0 ∧ fieldValue (withWords v1NoMod).x .mod = 0) ∧
    (fieldValue v1Words .mod ≠ 0 ∧
      (fieldValue v1Words .int * 10000000 + fieldValue v1Words .frac * 10000000 / fieldValue v1Words .mod) /
        2 ^ fieldValue v1Words .rfDividerSelect < ((withWords v1Words).params.vcoMin + 63) / 64) ∧
    ((withWords v1Words).params.vcoMax <
      (fieldValue v1Undivided .int * 90000000 + fieldValue v1Undivided .frac * 90000000 / fieldValue v1Undivided .mod) /
        2 ^ fieldValue v1Undivided .rfDividerSelect) := by
  decide
theorem witness_PlanThenFoutReturnsTarget :
    ∃ t, exec planV1 .reset = .next t ∧ t.status = .ok ∧
      25000000 = (25000000#64).toNat * (1 + fieldValue t.x .refDoubler) / fieldValue t.x .rCounter / (1 + fieldValue t.x .rdiv2) ∧
      16128000000000 = (63000000#64).toNat * 2 ^ fieldValue t.x .rfDividerSelect * (4000#16).toNat ∧
      16128000000000 % 25000000 = 0 ∧ 23 ≤ 16128000000000 / 25000000 / (4000#16).toNat ∧
      16128000000000 / 25000000 / (4000#16).toNat < 65536 :=
  ⟨_, rfl, by decide, by decide, by decide, by decide, by decide, by decide⟩

/-- A target that is not representable exactly (1 Hz off V1's), then FOUT. -/
theorem witness_PlanErrorWithinChannelStep :
    ∃ t u, exec (.plan 25000000 63000001 4000 (.manual true true 1)) .reset = .next t ∧ t.status = .ok ∧
      6 = fieldValue t.x .rfDividerSelect ∧
      25000000 = (25000000#64).toNat * (1 + fieldValue t.x .refDoubler) / fieldValue t.x .rCounter / (1 + fieldValue t.x .rdiv2) ∧
      23 ≤ (63000001#64).toNat * 2 ^ 6 * (4000#16).toNat / 25000000 / (4000#16).toNat ∧
      (63000001#64).toNat * 2 ^ 6 * (4000#16).toNat / 25000000 / (4000#16).toNat < 65536 ∧
      exec (.fout 25000000) t = .next u ∧ u.status = .ok :=
  ⟨_, _, rfl, by decide, by decide, by decide, by decide, by decide, rfl, by decide⟩
theorem witness_StaticOptionsCommuteWithPlan :
    RegField.phase ∉ planFields ∧ ∃ t, exec planV1 .reset = .next t ∧ t.status = .ok :=
  ⟨by decide, _, rfl, by decide⟩
theorem witness_SourceScenario :
    (withWords v1Words).params = Params.default ∧
    (withWords v1Words).x = ⟨0x0050A300, 0x00007D01, 0x03004002, 0x00000003, 0x00E00004, 0x00000005⟩ := by decide

/-- Tags 5, 6 and 7, and both answers. -/
theorem witness_WwriteFollowsDeviceWriter :
    (6 ≤ (6#32).toNat % 8 ∧ 6 ≤ (7#32).toNat % 8 ∧ (5#32).toNat % 8 < 6) ∧
    (withWords v1Words [.ok]).answers = [Answer.ok] ∧
    (withWords v1Words [.error .pinError]).answers = [Answer.error .pinError] := by decide
theorem witness_ProgSendsWireImage :
    (withWords v1Words [.ok, .ok, .ok, .ok, .ok, .ok]).answers = List.replicate 6 Answer.ok ++ [] := by decide
theorem witness_ProgStopsAtFirstFailure :
    (0 < 6 ∧ (withWords v1Words [.error .busError]).answers = List.replicate 0 Answer.ok ++ [Answer.error .busError]) ∧
    (5 < 6 ∧ (withWords v1Words [.ok, .ok, .ok, .ok, .ok, .error .pinError]).answers =
      List.replicate 5 Answer.ok ++ [Answer.error .pinError]) := by decide
theorem witness_HistoryIsAppendOnly :
    ∃ t, step { withWords v1Words [.ok] with inbox := [.command { cw := 0xA0000000, opA := 5 }] } = .next t ∧
      t.hist ≠ (withWords v1Words [.ok]).hist :=
  ⟨_, rfl, by decide⟩
theorem witness_ChipReachedOnlyThroughDeviceWriter :
    (∃ t, step { State.reset with inbox := [.command { cw := 0x60000000 }] } = .next t ∧ t.hist = State.reset.hist) ∧
    (∃ t, step { State.reset with inbox := [.regWord 5] } = .next t) ∧ decode (.regWord 5) = some (.w5 0) :=
  ⟨⟨_, rfl, by decide⟩, ⟨_, rfl⟩, by decide⟩
theorem witness_OperationsDoNotReadTheChip : ∃ t, exec planV1 .reset = .next t := ⟨_, rfl⟩
theorem witness_ErrorsLeaveRegisterSet :
    (∃ t, exec (.fout 25000000) .reset = .next t ∧ t.status ≠ .ok ∧ t.status ≠ .busError ∧ t.status ≠ .pinError) ∧
    (∃ t, exec .prog (withWords v1Words [.error .busError]) = .next t ∧ t.status ≠ .ok) :=
  ⟨⟨_, rfl, by decide, by decide, by decide⟩, _, rfl, by decide⟩

/-- One fault of each operation that has one. -/
theorem witness_SpecFaultsOnlyWhereListed :
    (∃ t, exec (.fget 17 15 0) .reset = .next t ∧ t.noFault = false) ∧
    (∃ t, exec (.fset 17 15 0 0) .reset = .next t ∧ t.noFault = false) ∧
    (∃ t, exec (.pfd 10000000 false false 0) .reset = .next t ∧ t.noFault = false) ∧
    (∃ t, exec (.plan 25000000 63000000 4096 .auto) .reset = .next t ∧ t.noFault = false) ∧
    (∃ t, exec (.fout 25000000) (withWords v1NoMod) = .next t ∧ t.noFault = false) ∧
    (∃ t, exec (.wwrite 6) .reset = .next t ∧ t.noFault = false) ∧
    (∃ t, exec (.w5 1) .reset = .next t ∧ t.noFault = false) :=
  ⟨⟨_, rfl, by decide⟩, ⟨_, rfl, by decide⟩, ⟨_, rfl, by decide⟩, ⟨_, rfl, by decide⟩, ⟨_, rfl, by decide⟩, ⟨_, rfl, by decide⟩,
    _, rfl, by decide⟩

/-- A run of an operation for each error that it alone can show. -/
theorem witness_ErrorsComeFromTheirOperations :
    (∃ t, exec (.pfd 5 false false 1) .reset = .next t ∧ t.status = .invalidReferenceFrequency) ∧
    (∃ t, exec (.plan 25000000 10 4000 .auto) .reset = .next t ∧ t.status = .invalidOutputFrequency) ∧
    (∃ t, exec (.wwrite 5) (withWords v1Words [.error .busError]) = .next t ∧ t.status = .busError) ∧
    (∃ t, exec .prog (withWords v1Words [.error .pinError]) = .next t ∧ t.status = .pinError) :=
  ⟨⟨_, rfl, by decide⟩, ⟨_, rfl, by decide⟩, ⟨_, rfl, by decide⟩, _, rfl, by decide⟩
theorem witness_UnmatchedCommandIsIllegal :
    { State.reset with inbox := [.command { cw := 0xC0000000 }] }.inbox = .command { cw := 0xC0000000 } :: [] ∧
    decodeCommand { cw := 0xC0000000 } = none := by decide
theorem witness_OnlyThreeOperationsWriteRegisters :
    ∃ t, exec planV1 .reset = .next t ∧ t.x ≠ State.reset.x := ⟨_, rfl, by decide⟩
theorem witness_StepRunsDecodedInstruction :
    { State.reset with inbox := [.command { cw := 0xB0000000 }] }.inbox = .command { cw := 0xB0000000 } :: [] ∧
    decode (.command { cw := 0xB0000000 }) = some .prog := by decide
theorem witness_StepStopsWithoutInput : State.reset.inbox = [] := by decide

/-- A word of a format, one with a bit of no field set, tags 6 and 7. -/
theorem witness_WordByItselfIsIllegal :
    { State.reset with inbox := [.regWord 5] }.inbox = .regWord 5 :: [] ∧
    { State.reset with inbox := [.regWord 0x80000005] }.inbox = .regWord 0x80000005 :: [] ∧
    { State.reset with inbox := [.regWord 6] }.inbox = .regWord 6 :: [] ∧
    { State.reset with inbox := [.regWord 7] }.inbox = .regWord 7 :: [] := by decide
theorem witness_ResetInputRestoresDefault : { withWords v1Words with inbox := [.reset] }.inbox = .reset :: [] := by decide
theorem witness_StepKeepsInvariant :
    { State.reset with inbox := [.command { cw := 0x60000000 }] }.inv = true ∧
    ∃ t, step { State.reset with inbox := [.command { cw := 0x60000000 }] } = .next t := ⟨by decide, _, rfl⟩
theorem witness_WrittenDividersStayNonzero :
    (∃ t, exec planV1 (withWords v1Band) = .next t) ∧ planV1 ≠ .rsdef ∧ fieldValue (withWords v1Band).x .rCounter ≠ 0 ∧
    fieldValue (withWords v1Band).x .bandSelectClockDiv ≠ 0 := ⟨⟨_, rfl⟩, by decide, by decide, by decide⟩
theorem witness_ReachableRegisterSetsAreLegal :
    Params.default.Valid ∧
    ∃ t, Reaches { State.reset with inbox := [.command { cw := 0x40400000, opA := 161 }], answers := [], params := .default } t ∧
      t.x ≠ State.reset.x :=
  ⟨by decide, _, .tail (.refl _) rfl, by decide⟩

end Sys2Proof.Tests
end

section
/-! PROOFS of 10_state.md. How an operation that ends in `complete` meets `Completes`, RSDEF and RGET on every state, and the
state after reset. -/

namespace Sys2Proof.Machine

/-! ## Operations that complete -/

/-- The frame of every operation that writes at most the Register Set and then completes. -/
theorem completes_of_exec {i : Instr} {s : State} {v : Dword} {x' : Words}
    (h : exec i s = .next (complete v { s with x := x' })) : Completes i s v x' :=
  ⟨_, h, rfl, rfl, rfl, ⟨rfl, rfl, rfl, rfl⟩, ⟨rfl, rfl, rfl⟩⟩

theorem rsdef_completes (s : State) : Completes .rsdef s 0 .default := completes_of_exec rfl

theorem rget_completes (f : RegField) (s : State) : Completes (.rget f) s (BitVec.ofNat 64 (fieldValue s.x f)) s.x := by
  rw [← getField_eq_fieldValue]
  exact completes_of_exec rfl

/-! ## The default Register Set (R26) -/

/-- "All fields zero except each register's fixed address tag": a default word is its tag. -/
theorem get_default_toNat (a : Reg) : (Words.default.get a).toNat = a.number := by cases a <;> rfl

theorem number_lt_eight (a : Reg) : a.number < 8 := by cases a <;> decide

/-- Every field lies above the three tag bits, and a default word has no other bits set. -/
theorem fieldValue_default (f : RegField) : fieldValue .default f = 0 := by
  have hpow : 2 ^ 3 ≤ 2 ^ f.desc.offset := Nat.pow_le_pow_right (by norm_num) (desc_bounds f).1
  have hlt : f.desc.reg.number < 2 ^ f.desc.offset := lt_of_lt_of_le (number_lt_eight _) hpow
  rw [fieldValue, get_default_toNat, Nat.div_eq_of_lt hlt, Nat.zero_mod]

/-! ## Reset -/

/-- Settles O53: RSDEF and RGET complete on every state, and every field of the default Register Set is 0. -/
theorem resetValues : Obligations.ResetValues := by
  refine ⟨rfl, rfl, rfl, rsdef_completes, fun f => ?_⟩
  have hread := rget_completes f .reset
  rw [show fieldValue State.reset.x f = 0 from fieldValue_default f] at hread
  exact hread

end Sys2Proof.Machine
end

section
/-! PROOFS of 30_encoding.md. The words of the six register formats as numbers (R51 to R56). -/

namespace Sys2Proof.Machine

/-- Concatenation in arithmetic: the upper part counts multiples of the lower part's range. -/
theorem append_toNat {m n : Nat} (hi : BitVec m) (lo : BitVec n) : (hi ++ lo).toNat = hi.toNat * 2 ^ n + lo.toNat := by
  rw [BitVec.toNat_append, ← Nat.shiftLeft_add_eq_or_of_lt lo.isLt, Nat.shiftLeft_eq]

/-! ## One number per format

`append_toNat` turns a word into the nested sum of its parts from bit 31 down; what `omega` checks is that the widths of the parts
below a field (unassigned zeros included) add up to that field's offset in the spec's pattern. -/

/-- Format W0 (R51); bit 31 is zero. -/
theorem wordW0_toNat (frac int) : (wordW0 frac int).toNat = int.toNat * 2 ^ 15 + frac.toNat * 2 ^ 3 + 0 := by
  simp only [wordW0, append_toNat, BitVec.toNat_ofNat]
  omega

/-- Format W1 (R52); bits 31 to 29 are zero. -/
theorem wordW1_toNat (mod phase prescaler phaseAdjust) :
    (wordW1 mod phase prescaler phaseAdjust).toNat =
      phaseAdjust.toNat * 2 ^ 28 + prescaler.toNat * 2 ^ 27 + phase.toNat * 2 ^ 15 + mod.toNat * 2 ^ 3 + 1 := by
  simp only [wordW1, append_toNat, BitVec.toNat_ofNat]
  omega

/-- Format W2 (R53); bit 31 is zero. -/
theorem wordW2_toNat (counterReset cpThreeState powerDown pdPolarity ldp ldf cpCurrent doubleBuffer rCounter rdiv2 refDoubler
    muxout noiseMode) :
    (wordW2 counterReset cpThreeState powerDown pdPolarity ldp ldf cpCurrent doubleBuffer rCounter rdiv2 refDoubler muxout
        noiseMode).toNat =
      noiseMode.toNat * 2 ^ 29 + muxout.toNat * 2 ^ 26 + refDoubler.toNat * 2 ^ 25 + rdiv2.toNat * 2 ^ 24 +
        rCounter.toNat * 2 ^ 14 + doubleBuffer.toNat * 2 ^ 13 + cpCurrent.toNat * 2 ^ 9 + ldf.toNat * 2 ^ 8 +
        ldp.toNat * 2 ^ 7 + pdPolarity.toNat * 2 ^ 6 + powerDown.toNat * 2 ^ 5 + cpThreeState.toNat * 2 ^ 4 +
        counterReset.toNat * 2 ^ 3 + 2 := by
  simp only [wordW2, append_toNat, BitVec.toNat_ofNat]
  omega

/-- Format W3 (R54); bits 31 to 24, 20, 19 and 17 are zero. -/
theorem wordW3_toNat (clockDivider clockDividerMode csr chargeCancel antiBacklashWidth bandSelectClockMode) :
    (wordW3 clockDivider clockDividerMode csr chargeCancel antiBacklashWidth bandSelectClockMode).toNat =
      bandSelectClockMode.toNat * 2 ^ 23 + antiBacklashWidth.toNat * 2 ^ 22 + chargeCancel.toNat * 2 ^ 21 +
        csr.toNat * 2 ^ 18 + clockDividerMode.toNat * 2 ^ 15 + clockDivider.toNat * 2 ^ 3 + 3 := by
  simp only [wordW3, append_toNat, BitVec.toNat_ofNat]
  omega

/-- Format W4 (R55); bits 31 to 24 are zero. -/
theorem wordW4_toNat (outputPower rfOutputEnable auxOutputPower auxOutputEnable auxOutputSelect muteTillLock vcoPowerDown
    bandSelectClockDiv rfDividerSelect feedbackSelect) :
    (wordW4 outputPower rfOutputEnable auxOutputPower auxOutputEnable auxOutputSelect muteTillLock vcoPowerDown
        bandSelectClockDiv rfDividerSelect feedbackSelect).toNat =
      feedbackSelect.toNat * 2 ^ 23 + rfDividerSelect.toNat * 2 ^ 20 + bandSelectClockDiv.toNat * 2 ^ 12 +
        vcoPowerDown.toNat * 2 ^ 11 + muteTillLock.toNat * 2 ^ 10 + auxOutputSelect.toNat * 2 ^ 9 +
        auxOutputEnable.toNat * 2 ^ 8 + auxOutputPower.toNat * 2 ^ 6 + rfOutputEnable.toNat * 2 ^ 5 +
        outputPower.toNat * 2 ^ 3 + 4 := by
  simp only [wordW4, append_toNat, BitVec.toNat_ofNat]
  omega

/-- Format W5 (R56); bits 31 to 24 and 21 to 3 are zero. -/
theorem wordW5_toNat (lockDetectPin) : (wordW5 lockDetectPin).toNat = lockDetectPin.toNat * 2 ^ 22 + 5 := by
  simp only [wordW5, append_toNat, BitVec.toNat_ofNat]
  omega

/-- Settles O9: the six formats, each by its own lemma. -/
theorem registerWordFormats : Obligations.RegisterWordFormats :=
  ⟨wordW0_toNat, wordW1_toNat, wordW2_toNat, wordW3_toNat, wordW4_toNat, wordW5_toNat⟩

end Sys2Proof.Machine
end

section
/-! PROOFS of 40_codec.md. What FGET and FSET do with a descriptor that fits and with one that does not, and the codec's laws
about `fieldGet` and `fieldSet` carried over to the two operations. -/

namespace Sys2Proof.Machine

/-! ## The two operations -/

/-- The frame of every operation that stops in an error or fault (R157). -/
theorem endsIn_of_exec {i : Instr} {s : State} {st : Status} (h : exec i s = .next (raise st s)) : EndsIn i s st :=
  ⟨_, h, rfl, rfl, raise_sameChip st s, raise_sameInputs st s⟩

/-- The answer of FGET and FSET: the descriptor's check decides between the value and BadDescriptor (R81). -/
theorem conclude_checked_of_fits {o m : BitVec 5} (h : o.toNat + (m.toNat + 1) ≤ 32) (v : Dword) (s : State) :
    conclude (if descriptorFits o.toNat (widthOf m) then .ok v else .error .badDescriptor) s = complete v s := by
  rw [if_pos ((descriptorFits_iff o m).2 h)]
  rfl

theorem conclude_checked_of_not_fits {o m : BitVec 5} (h : 32 < o.toNat + (m.toNat + 1)) (v : Dword) (s : State) :
    conclude (if descriptorFits o.toNat (widthOf m) then .ok v else .error .badDescriptor) s = raise .badDescriptor s := by
  rw [if_neg fun hfits => by have := (descriptorFits_iff o m).1 hfits; omega]
  rfl

theorem fget_completes {o m : BitVec 5} (h : o.toNat + (m.toNat + 1) ≤ 32) (word : Word) (s : State) :
    Completes (.fget o m word) s ((fieldGet word o.toNat (m.toNat + 1)).setWidth 64) s.x :=
  completes_of_exec (congrArg Host.Outcome.next (conclude_checked_of_fits h _ s))

theorem fset_completes {o m : BitVec 5} (h : o.toNat + (m.toNat + 1) ≤ 32) (word : Word) (value : Dword) (s : State) :
    Completes (.fset o m word value) s ((fieldSet word o.toNat (m.toNat + 1) value.toNat).setWidth 64) s.x :=
  completes_of_exec (congrArg Host.Outcome.next (conclude_checked_of_fits h _ s))

theorem fget_badDescriptor {o m : BitVec 5} (h : 32 < o.toNat + (m.toNat + 1)) (word : Word) (s : State) :
    EndsIn (.fget o m word) s .badDescriptor :=
  endsIn_of_exec (congrArg Host.Outcome.next (conclude_checked_of_not_fits h _ s))

theorem fset_badDescriptor {o m : BitVec 5} (h : 32 < o.toNat + (m.toNat + 1)) (word : Word) (value : Dword) (s : State) :
    EndsIn (.fset o m word value) s .badDescriptor :=
  endsIn_of_exec (congrArg Host.Outcome.next (conclude_checked_of_not_fits h _ s))

/-! ## Words on the 64-bit ports -/

/-- A word widened to the result latch and presented again as a word operand is the same word. -/
@[simp] theorem setWidth_word_dword_word (w : Word) : (w.setWidth 64).setWidth 32 = w := by
  rw [BitVec.setWidth_setWidth_of_le w (by norm_num), BitVec.setWidth_eq]

/-- Widening a word keeps its number. -/
@[simp] theorem toNat_setWidth_dword (w : Word) : (w.setWidth 64).toNat = w.toNat :=
  BitVec.toNat_setWidth_of_le (by norm_num)

/-! ## The laws of `fieldGet` and `fieldSet` -/

/-- The round trip as a number: FGET reads back the value's low bits (R84). -/
theorem fieldGet_fieldSet_toNat (word : Word) {o n : Nat} (v : Nat) (h : o + n ≤ 32) :
    (fieldGet (fieldSet word o n v) o n).toNat = v % 2 ^ n := by
  have hlt : v % 2 ^ n < 2 ^ 32 :=
    lt_of_lt_of_le (Nat.mod_lt _ (by positivity)) (Nat.pow_le_pow_right (by norm_num) (by omega))
  rw [fieldGet_fieldSet_same word v h, BitVec.toNat_ofNat, Nat.mod_eq_of_lt hlt]

/-- Writing back what a field holds changes nothing (R86). -/
theorem fieldSet_fieldGet (word : Word) (o n : Nat) : fieldSet word o n (fieldGet word o n).toNat = word := by
  apply BitVec.eq_of_getLsbD_eq
  intro i hi
  rw [fieldSet_getLsbD, BitVec.testBit_toNat, fieldGet_getLsbD]
  split_ifs with hin
  · have hpos : o + (i - o) = i := by omega
    have hwidth : i - o < n := by omega
    have hword : i - o < 32 := by omega
    simp [hpos, hwidth, hword]
  · rfl

/-- The in-word mask of a field holds exactly the field's bits (R85). -/
theorem mask_shiftLeft_getLsbD (o n i : Nat) :
    (mask n <<< o).getLsbD i = decide (o ≤ i ∧ i < o + n ∧ i < 32) := by
  rw [BitVec.getLsbD_shiftLeft, mask_getLsbD, Bool.eq_iff_iff]
  simp only [Bool.and_eq_true, Bool.not_eq_true', decide_eq_true_eq, decide_eq_false_iff_not]
  omega

/-- A field write leaves the bits outside the field's in-word mask (R85). -/
theorem fieldSet_and_not_mask (word : Word) (o n v : Nat) :
    fieldSet word o n v &&& ~~~(mask n <<< o) = word &&& ~~~(mask n <<< o) := by
  apply BitVec.eq_of_getLsbD_eq
  intro i hi
  rw [BitVec.getLsbD_and, BitVec.getLsbD_and, BitVec.getLsbD_not, mask_shiftLeft_getLsbD, fieldSet_getLsbD]
  split_ifs with hin
  · simp [hin]
  · rfl

/-- Two nonempty fields whose in-word masks share no bit lie apart: otherwise both masks hold the higher of the two offsets. -/
theorem apart_of_mask_and_eq_zero {o n o' n' : Nat} (hn : 0 < n) (hn' : 0 < n') (h : o + n ≤ 32)
    (hdisjoint : (mask n <<< o) &&& (mask n' <<< o') = 0) : Apart o n o' n' := by
  by_contra hnot
  unfold Apart at hnot
  have hbit : ((mask n <<< o) &&& (mask n' <<< o')).getLsbD (max o o') = true := by
    rw [BitVec.getLsbD_and, mask_shiftLeft_getLsbD, mask_shiftLeft_getLsbD, Bool.and_eq_true, decide_eq_true_eq,
      decide_eq_true_eq]
    omega
  simp [hdisjoint] at hbit

/-- A field write leaves every bit below the field, as a number. -/
theorem fieldSet_toNat_mod_two_pow (word : Word) {k o : Nat} (n v : Nat) (h : k ≤ o) :
    (fieldSet word o n v).toNat % 2 ^ k = word.toNat % 2 ^ k := by
  apply Nat.eq_of_testBit_eq
  intro i
  rw [Nat.testBit_mod_two_pow, Nat.testBit_mod_two_pow, BitVec.testBit_toNat, BitVec.testBit_toNat, fieldSet_getLsbD]
  by_cases hik : i < k
  · rw [if_neg (by omega)]
  · simp [hik]

/-! ## The obligations -/

/-- Settles O2: the bits of `fieldSet`, carried to the 64-bit result. -/
theorem fsetReplacesOnlyFieldBits : Obligations.FsetReplacesOnlyFieldBits := by
  intro o m word value s
  refine ⟨fun h => ⟨_, fset_completes h word value s, fun i => ?_⟩, fun h => fset_badDescriptor h word value s⟩
  rw [BitVec.getLsbD_setWidth, fieldSet_getLsbD, BitVec.testBit_toNat]
  by_cases hi : i < 32
  · have hi64 : i < 64 := by omega
    simp [hi, hi64]
  · rw [if_neg (by omega), if_neg (by omega), BitVec.getLsbD_of_ge word i (by omega), Bool.and_false]

/-- Settles O3: the word FSET answers is the one FGET is given, and `fieldGet_fieldSet_toNat` reads it. -/
theorem codecRoundTrip : Obligations.CodecRoundTrip := by
  intro o m word s s' h
  refine ⟨fun value => ⟨_, fset_completes h word value s, ?_⟩, fun n => fieldGet_fieldSet_toNat word n h⟩
  rw [setWidth_word_dword_word, ← fieldGet_fieldSet_toNat word value.toNat h, BitVec.ofNat_toNat]
  exact fget_completes h _ s'

/-- Settles O4: masks that share no bit belong to fields that lie apart, whose reads and writes are independent. -/
theorem codecFrame : Obligations.CodecFrame := by
  intro o m o' m' word v u s h h'
  refine ⟨_, fset_completes h word v s, ?_, fun hdisjoint => ?_⟩
  · rw [setWidth_word_dword_word]
    exact fieldSet_and_not_mask word o.toNat (m.toNat + 1) v.toNat
  · have hapart : Apart o.toNat (m.toNat + 1) o'.toNat (m'.toNat + 1) :=
      apart_of_mask_and_eq_zero (by omega) (by omega) h hdisjoint
    refine ⟨⟨_, ?_, fget_completes h' word s⟩, _, _, fset_completes h' _ u s, fset_completes h' word u s, ?_⟩
    · rw [setWidth_word_dword_word, ← fieldGet_fieldSet_apart word v.toNat hapart]
      exact fget_completes h' _ s
    · rw [setWidth_word_dword_word, setWidth_word_dword_word, fieldSet_comm word v.toNat u.toNat hapart]
      exact fset_completes h _ v s

/-- Settles O5: `fieldSet_fieldSet` and `fieldSet_fieldGet` for the operations. -/
theorem codecOverwrites : Obligations.CodecOverwrites := by
  intro o m word u v s h
  refine ⟨⟨_, _, fset_completes h word u s, ?_, fset_completes h word v s⟩, _, fget_completes h word s, ?_⟩
  · rw [setWidth_word_dword_word, ← fieldSet_fieldSet word o.toNat (m.toNat + 1) u.toNat v.toNat]
    exact fset_completes h _ v s
  · have hset := fset_completes h word ((fieldGet word o.toNat (m.toNat + 1)).setWidth 64) s
    rwa [toNat_setWidth_dword, fieldSet_fieldGet] at hset

/-- Settles O6: every named field lies above the three tag bits, and a field write leaves the bits below the field. -/
theorem namedFieldsKeepAddressTag : Obligations.NamedFieldsKeepAddressTag := by
  intro f word v s
  obtain ⟨habove, hwide, htop⟩ := desc_bounds f
  have hoffset : (BitVec.ofNat 5 f.desc.offset).toNat = f.desc.offset := by
    rw [BitVec.toNat_ofNat, Nat.mod_eq_of_lt (by omega)]
  have hwidth : (BitVec.ofNat 5 (f.desc.width - 1)).toNat + 1 = f.desc.width := by
    rw [BitVec.toNat_ofNat, Nat.mod_eq_of_lt (by omega), Nat.sub_add_cancel hwide]
  refine ⟨_, fset_completes (by rw [hoffset, hwidth]; omega) word v s, ?_⟩
  rw [toNat_setWidth_dword, hoffset]
  exact fieldSet_toNat_mod_two_pow word (k := 3) _ _ habove

/-- Settles O1: FGET's value by `fieldGet_toNat`, its fault by the descriptor's check. -/
theorem fgetAnswersFieldValue : Obligations.FgetAnswersFieldValue := by
  intro o m word s
  refine ⟨fun h => ?_, fun h => fget_badDescriptor h word s⟩
  rw [← fieldGet_toNat word o.toNat (by omega), BitVec.ofNat_toNat]
  exact fget_completes h word s

end Sys2Proof.Machine
end

section
/-! PROOFS of 41_regset.md. What RSET, RWORD and RSER do on every state, and the laws of `setField` and `prepare` carried over
to RSET and RGET. -/

namespace Sys2Proof.Machine

/-! ## The operations -/

theorem rset_completes (f : RegField) (psc : Prescaler) (v : Dword) (s : State) :
    Completes (.rset f psc v) s 0 (rsetWords f v.toNat psc s.x) := completes_of_exec rfl

theorem rword_completes (a : Reg) (s : State) : Completes (.rword a) s ((readReg s.x a).setWidth 64) s.x :=
  completes_of_exec rfl

/-- RGET once the Register Set is the one an RSET of the field left: the prepared value, masked to the width (R93). -/
theorem rget_after_rset (f : RegField) (psc : Prescaler) (v : Nat) {x : Words} {t : State} (ht : t.x = rsetWords f v psc x) :
    Completes (.rget f) t (BitVec.ofNat 64 (prepare f v psc % 2 ^ f.desc.width)) t.x := by
  rw [← getField_rsetWords_same x f v psc, ← ht, getField_eq_fieldValue]
  exact rget_completes f t

/-- Three of the four clamps end below the range of their fields (R94 to R96). -/
theorem prepare_lt_two_pow {f : RegField} (v : Nat) (psc : Prescaler)
    (h : f ∈ [RegField.rfDividerSelect, .rCounter, .bandSelectClockDiv]) : prepare f v psc < 2 ^ f.desc.width := by
  simp only [List.mem_cons, List.not_mem_nil, or_false] at h
  obtain rfl | rfl | rfl := h <;>
    simp only [prepare, clamp, maxStages, rMin, rMax, bscdMin, bscdMax, RegField.desc] <;> omega

/-! ## The words -/

/-- A register's word as the machine reads it is the word the spec tags by OR (R99). -/
theorem readReg_eq_taggedWord (x : Words) (a : Reg) : readReg x a = taggedWord x a := rfl

/-- The hardwired tag shows in the low three bits, whatever the stored word holds (R11, R101). -/
theorem taggedWord_toNat_mod_eight (x : Words) (a : Reg) : (taggedWord x a).toNat % 8 = a.number := by
  apply low_bits_eq_of_tag
  intro i hi
  rw [← readReg_eq_taggedWord, readReg, withTag_getLsbD, if_pos hi]

/-- Where the tag stands already, a field write changes the bits of the field only (R93). -/
theorem setField_getLsbD_of_wf {x : Words} (h : x.wf = true) (f : RegField) (v : Nat) (a : Reg) (i : Nat) :
    ((setField f v x).get a).getLsbD i =
      if a = f.desc.reg ∧ f.desc.offset ≤ i ∧ i < f.desc.offset + f.desc.width then v.testBit (i - f.desc.offset)
      else (x.get a).getLsbD i := by
  obtain ⟨htag, -, -⟩ := (wf_iff x).1 h
  obtain ⟨habove, -, -⟩ := desc_bounds f
  rw [setField_getLsbD]
  by_cases ha : a = f.desc.reg
  · rw [if_pos ha]
    by_cases hi : i < 3
    · rw [if_pos hi, if_neg (by omega)]
      exact (tag_of_low_bits (htag a) i hi).symm
    · simp [ha, hi]
  · simp [ha]

/-- RSETs of two different fields commute on the six words (R103). -/
theorem rsetWords_comm (x : Words) {f g : RegField} (u v : Nat) (p q : Prescaler) (h : f ≠ g) :
    rsetWords g v q (rsetWords f u p x) = rsetWords f u p (rsetWords g v q x) :=
  setField_comm x _ _ h

/-! ## The obligations -/

/-- Settles O16: `setField_getLsbD_of_wf` for the prepared value. -/
theorem rsetWritesFieldBitsOnly : Obligations.RsetWritesFieldBitsOnly :=
  fun f psc v s hwf => ⟨_, rset_completes f psc v s, setField_getLsbD_of_wf hwf f _⟩

/-- Settles O17: three clamps end below the range of their fields, so the mask changes nothing there; the floor of INT is
masked like any value, and `prepare` leaves the other fields' values alone. -/
theorem readAfterWriteWithClamps : Obligations.ReadAfterWriteWithClamps := by
  intro f psc v s
  refine ⟨_, rset_completes f psc v s, fun t ht => ?_⟩
  have hread := rget_after_rset f psc v.toNat ht
  cases f with
  | rfDividerSelect | rCounter | bandSelectClockDiv =>
    rwa [Nat.mod_eq_of_lt (prepare_lt_two_pow _ psc (by decide))] at hread
  | int => cases psc <;> exact hread
  | _ => exact hread

/-- Settles O18: a write of one field leaves the value of the other, and the two writes commute. -/
theorem differentFieldsAreIndependent : Obligations.DifferentFieldsAreIndependent := by
  intro f g p q u v s hne
  refine ⟨_, _, rsetWords g v.toNat q (rsetWords f u.toNat p s.x), rset_completes f p u s, rset_completes g q v s,
    fun t ht => ⟨?_, ?_⟩, fun t ht => ?_⟩
  · rw [← ht]
    exact rset_completes g q v t
  · rw [← getField_eq_fieldValue, ← getField_rsetWords_other s.x u.toNat p hne, ← ht, getField_eq_fieldValue]
    exact rget_completes g t
  · rw [rsetWords_comm s.x u.toNat v.toNat p q hne, ← ht]
    exact rset_completes f p u t

/-- Settles O14: the default Register Set is the six words of R91. -/
theorem rsdefSetsDefault : Obligations.RsdefSetsDefault := rsdef_completes

/-- Settles O15: RGET on every state. -/
theorem rgetAnswersFieldValue : Obligations.RgetAnswersFieldValue := rget_completes

/-- Settles O19: RWORD's word is the tagged one. -/
theorem rwordAnswersTaggedWord : Obligations.RwordAnswersTaggedWord := by
  intro a s
  rw [← readReg_eq_taggedWord]
  exact rword_completes a s

/-- Settles O20: RSER drives the wire image, and each of its words ends in its register's number. -/
theorem rserDrivesWireImage : Obligations.RserDrivesWireImage := by
  intro s
  refine ⟨_, rfl, rfl, rfl, rfl, ⟨rfl, rfl, rfl, rfl⟩, ⟨rfl, rfl, rfl⟩, rfl, ?_⟩
  simp [wireImage, readReg_eq_taggedWord, taggedWord_toNat_mod_eight, Reg.number]

end Sys2Proof.Machine
end

section
/-! PROOFS of 42_planner.md. The checks of `pfdChecked` one by one, PFD and FOUT on top of them, the derivation of PLAN under
valid parameters, and the Register Set that PLAN's twelve writes leave. -/

namespace Sys2Proof.Machine

/-! ## The validated phase-detector frequency (R110 to R112) -/

section Pfd

variable {p : Params} {ref d r h : Nat}

theorem pfdChecked_of_ref_out_of_range (href : ref < 10000000 ∨ 250000000 ≤ ref) :
    pfdChecked p ref d r h = .error .invalidReferenceFrequency := if_pos href

/-- Where ref is in range, r and then the ceiling decide (R111, R112). -/
theorem pfdChecked_of_ref_in_range (hlo : 10000000 ≤ ref) (hhi : ref < 250000000) :
    pfdChecked p ref d r h =
      if r = 0 then .error .divideByZero
      else if p.pfdMaxInt < ref * (1 + d) / r / (1 + h) then .error .invalidReferenceFrequency
      else .ok (ref * (1 + d) / r / (1 + h)) :=
  if_neg (not_or.2 ⟨hlo.not_gt, hhi.not_ge⟩)

theorem pfdChecked_of_r_eq_zero (hlo : 10000000 ≤ ref) (hhi : ref < 250000000) (hr : r = 0) :
    pfdChecked p ref d r h = .error .divideByZero := by
  rw [pfdChecked_of_ref_in_range hlo hhi, if_pos hr]

theorem pfdChecked_of_above_ceiling (hlo : 10000000 ≤ ref) (hhi : ref < 250000000) (hr : r ≠ 0)
    (hceil : p.pfdMaxInt < ref * (1 + d) / r / (1 + h)) :
    pfdChecked p ref d r h = .error .invalidReferenceFrequency := by
  rw [pfdChecked_of_ref_in_range hlo hhi, if_neg hr, if_pos hceil]

theorem pfdChecked_of_pass (hlo : 10000000 ≤ ref) (hhi : ref < 250000000) (hr : r ≠ 0)
    (hceil : ref * (1 + d) / r / (1 + h) ≤ p.pfdMaxInt) :
    pfdChecked p ref d r h = .ok (ref * (1 + d) / r / (1 + h)) := by
  rw [pfdChecked_of_ref_in_range hlo hhi, if_neg hr, if_neg hceil.not_gt]

theorem pfdChecked_error_ne_ok {st : Status} (he : pfdChecked p ref d r h = .error st) : st ≠ .ok := by
  unfold pfdChecked at he
  split_ifs at he <;> cases he <;> decide

end Pfd

/-! ## PFD -/

/-- An operation that concludes with a number ends in the error its checks met, or completes with the number (R155). -/
theorem endsIn_of_conclude {i : Instr} {s : State} {e : Except Status Nat} {st : Status}
    (h : exec i s = .next (conclude (e.map (BitVec.ofNat 64)) s)) (he : e = .error st) : EndsIn i s st := by
  subst he
  exact endsIn_of_exec h

theorem completes_of_conclude {i : Instr} {s : State} {e : Except Status Nat} {v : Nat}
    (h : exec i s = .next (conclude (e.map (BitVec.ofNat 64)) s)) (he : e = .ok v) :
    Completes i s (BitVec.ofNat 64 v) s.x := by
  subst he
  exact completes_of_exec h

theorem pfd_endsIn {ref : Dword} {d h : Bool} {r : BitVec 16} {s : State} {st : Status}
    (he : pfdChecked s.params ref.toNat d.toNat r.toNat h.toNat = .error st) : EndsIn (.pfd ref d h r) s st :=
  endsIn_of_conclude rfl he

theorem pfd_completes {ref : Dword} {d h : Bool} {r : BitVec 16} {s : State} {f : Nat}
    (he : pfdChecked s.params ref.toNat d.toNat r.toNat h.toNat = .ok f) :
    Completes (.pfd ref d h r) s (BitVec.ofNat 64 f) s.x :=
  completes_of_conclude rfl he

/-! ## FOUT (R127, R128) -/

/-- The inverse calculation on the fields of a Register Set, from a phase-detector frequency (R127). -/
def foutValue (x : Words) (f : Nat) : Nat :=
  (fieldValue x .int * f + fieldValue x .frac * f / fieldValue x .mod) / 2 ^ fieldValue x .rfDividerSelect

/-- The phase-detector checks come first; then MOD, then the range of the answer (R155). -/
theorem foutCompute_eq (p : Params) (x : Words) (ref : Nat) :
    foutCompute p x ref =
      (pfdChecked p ref (fieldValue x .refDoubler) (fieldValue x .rCounter) (fieldValue x .rdiv2)).bind fun f =>
        if fieldValue x .mod = 0 then .error .divideByZero
        else if foutValue x f < (p.vcoMin + 63) / 64 ∨ p.vcoMax < foutValue x f then .error .invalidOutputFrequency
        else .ok (foutValue x f) := by
  simp only [← getField_eq_fieldValue, foutValue, foutCompute]
  cases pfdChecked p ref (getField x .refDoubler) (getField x .rCounter) (getField x .rdiv2) <;> rfl

theorem foutCompute_of_pfd_error {p : Params} {x : Words} {ref : Nat} {st : Status}
    (he : pfdChecked p ref (fieldValue x .refDoubler) (fieldValue x .rCounter) (fieldValue x .rdiv2) = .error st) :
    foutCompute p x ref = .error st := by
  rw [foutCompute_eq, he]
  rfl

theorem foutCompute_of_pfd_ok {p : Params} {x : Words} {ref f : Nat}
    (he : pfdChecked p ref (fieldValue x .refDoubler) (fieldValue x .rCounter) (fieldValue x .rdiv2) = .ok f) :
    foutCompute p x ref =
      if fieldValue x .mod = 0 then .error .divideByZero
      else if foutValue x f < (p.vcoMin + 63) / 64 ∨ p.vcoMax < foutValue x f then .error .invalidOutputFrequency
      else .ok (foutValue x f) := by
  rw [foutCompute_eq, he]
  rfl

/-- FOUT's answer, where every check passes (R127, R128). -/
theorem foutCompute_of_pass {p : Params} {x : Words} {ref f : Nat}
    (he : pfdChecked p ref (fieldValue x .refDoubler) (fieldValue x .rCounter) (fieldValue x .rdiv2) = .ok f)
    (hmod : fieldValue x .mod ≠ 0) (hlo : (p.vcoMin + 63) / 64 ≤ foutValue x f) (hhi : foutValue x f ≤ p.vcoMax) :
    foutCompute p x ref = .ok (foutValue x f) := by
  rw [foutCompute_of_pfd_ok he, if_neg hmod, if_neg (not_or.2 ⟨hlo.not_gt, hhi.not_gt⟩)]

theorem fout_endsIn {ref : Dword} {s : State} {st : Status} (he : foutCompute s.params s.x ref.toNat = .error st) :
    EndsIn (.fout ref) s st :=
  endsIn_of_conclude rfl he

theorem fout_completes {ref : Dword} {s : State} {v : Nat} (he : foutCompute s.params s.x ref.toNat = .ok v) :
    Completes (.fout ref) s (BitVec.ofNat 64 v) s.x :=
  completes_of_conclude rfl he

/-! ## The derivation of PLAN (R113 to R121) -/

/-- What PLAN derives from its operands, the number of doublings `k` and the phase-detector frequency `f` (R115, R120, R121). -/
def derivedValues (target k d h r m f : Nat) : PlanValues :=
  { psc := selectPrescaler target, stages := k, doubler := d, div2 := h, r := r,
    int := target * 2 ^ k * m / f / m, frac := target * 2 ^ k * m / f % m, modulus := m }

theorem planCompute_of_bad_modulus {p : Params} {ref target m : Nat} {path : RefPath} (hm : m < 2 ∨ 4095 < m) :
    planCompute p ref target m path = .error .badModulus := if_pos hm

theorem planCompute_of_target_out_of_range {p : Params} {ref target m : Nat} {path : RefPath} (hm2 : 2 ≤ m) (hm : m ≤ 4095)
    (ht : target < (p.vcoMin + 63) / 64 ∨ p.vcoMax < target) :
    planCompute p ref target m path = .error .invalidOutputFrequency :=
  (if_neg (not_or.2 ⟨hm2.not_gt, hm.not_gt⟩)).trans (if_pos ht)

/-- Under valid parameters the search ends inside the VCO range: six doublings bring the smallest target up to VCO_MIN_HZ, and
the last doubling starts below VCO_MIN_HZ, so it ends below twice that (R116). -/
theorem dividerSearch_of_valid {p : Params} {target : Nat} (hp : p.Valid) (hlo : (p.vcoMin + 63) / 64 ≤ target)
    (hhi : target ≤ p.vcoMax) :
    ∃ k ≤ 6, dividerSearch p.vcoMin maxStages target 0 = (target * 2 ^ k, k) ∧ p.vcoMin ≤ target * 2 ^ k ∧
      target * 2 ^ k ≤ p.vcoMax ∧ ∀ j < k, target * 2 ^ j < p.vcoMin := by
  obtain ⟨-, -, -, hdouble, -, -⟩ := hp
  obtain ⟨k, hk, hsearch, hbelow, hstop⟩ := dividerSearch_spec p.vcoMin maxStages target 0
  rw [Nat.zero_add] at hsearch
  refine ⟨k, hk, hsearch, ?_, ?_, hbelow⟩
  · rcases hstop with hreached | rfl
    · exact hreached
    · simp only [maxStages]
      omega
  · cases k with
    | zero => simpa using hhi
    | succ j =>
      have hlast : target * 2 ^ j < p.vcoMin := hbelow j (Nat.lt_succ_self j)
      rw [pow_succ, ← mul_assoc]
      omega

/-- Under valid parameters only the phase-detector checks are left once modulus and target have passed theirs (R116, R155). -/
theorem planCompute_of_valid {p : Params} {ref target m d h r : Nat} {path : RefPath} (hp : p.Valid) (hm2 : 2 ≤ m)
    (hm : m ≤ 4095) (hlo : (p.vcoMin + 63) / 64 ≤ target) (hhi : target ≤ p.vcoMax)
    (hpath : refPathSelect p ref path = (d, h, r)) :
    ∃ k ≤ 6, planCompute p ref target m path = (pfdChecked p ref d r h).map (derivedValues target k d h r m) ∧
      p.vcoMin ≤ target * 2 ^ k ∧ target * 2 ^ k ≤ p.vcoMax ∧ ∀ j < k, target * 2 ^ j < p.vcoMin := by
  obtain ⟨k, hk, hsearch, hmin, hmax, hbelow⟩ := dividerSearch_of_valid hp hlo hhi
  refine ⟨k, hk, ?_, hmin, hmax, hbelow⟩
  have hmodulus : ¬(m < modMin ∨ modMax < m) := not_or.2 ⟨hm2.not_gt, hm.not_gt⟩
  have htarget : ¬(target < outMinHz p ∨ outMaxHz p < target) := not_or.2 ⟨hlo.not_gt, hhi.not_gt⟩
  have hcand : ¬(target * 2 ^ k < p.vcoMin ∨ p.vcoMax < target * 2 ^ k) := not_or.2 ⟨hmin.not_gt, hmax.not_gt⟩
  simp only [planCompute, if_neg hmodulus, if_neg htarget, hsearch, if_neg hcand, hpath]
  cases pfdChecked p ref d r h <;> rfl

/-- An error of PLAN is never the status Ok: it is one of its own two, or the phase detector's. -/
theorem planCompute_error_ne_ok {p : Params} {ref target m : Nat} {path : RefPath} {st : Status}
    (he : planCompute p ref target m path = .error st) : st ≠ .ok := by
  unfold planCompute at he
  split_ifs at he
  · cases he
    decide
  · cases he
    decide
  · dsimp only at he
    split_ifs at he
    · cases he
      decide
    · split at he
      · next st' hpfd =>
        cases he
        exact pfdChecked_error_ne_ok hpfd
      · cases he

/-- Modulus and target have passed, and the phase-detector checks end PLAN in their error (R125, R155). -/
theorem planCompute_of_pfd_error {p : Params} {ref target m d h r : Nat} {path : RefPath} {st : Status} (hp : p.Valid)
    (hm2 : 2 ≤ m) (hm : m ≤ 4095) (hlo : (p.vcoMin + 63) / 64 ≤ target) (hhi : target ≤ p.vcoMax)
    (hpath : refPathSelect p ref path = (d, h, r)) (he : pfdChecked p ref d r h = .error st) :
    planCompute p ref target m path = .error st := by
  obtain ⟨k, -, hplan, -⟩ := planCompute_of_valid hp hm2 hm hlo hhi hpath
  rw [hplan, he]
  rfl

/-! ## The Register Set after PLAN (R124) -/

/-- The six words after PLAN's twelve writes. -/
def plannedWords (c : EnumCodes) (v : PlanValues) (x : Words) : Words := applyWrites v.psc (planWrites c v) x

theorem plan_endsIn {ref target : Dword} {m : BitVec 16} {path : RefPath} {s : State} {st : Status}
    (he : planCompute s.params ref.toNat target.toNat m.toNat path = .error st) : EndsIn (.plan ref target m path) s st :=
  endsIn_of_exec (by simp only [exec, execPlan, he])

theorem plan_completes {ref target : Dword} {m : BitVec 16} {path : RefPath} {s : State} {v : PlanValues}
    (he : planCompute s.params ref.toNat target.toNat m.toNat path = .ok v) :
    Completes (.plan ref target m path) s 0 (plannedWords s.params.codes v s.x) :=
  completes_of_exec (by simp only [exec, execPlan, he, plannedWords])

/-- The floor of INT goes by the target, as the prescaler does (R97, R115). -/
theorem intFloor_selectPrescaler (target : Nat) :
    intFloor (selectPrescaler target) = if 3600000000 < target then 75 else 23 :=
  apply_ite intFloor _ _ _

theorem prescalerCode_selectPrescaler (c : EnumCodes) (target : Nat) :
    prescalerCode c (selectPrescaler target) = (if 3600000000 < target then c.pscHigh else c.pscLow).toNat :=
  (apply_ite (prescalerCode c) _ _ _).trans (apply_ite BitVec.toNat _ _ _).symm

/-- Values that no clamp and no mask of an RSET changes; INT alone may not fit its field (R123, R126). -/
structure FitsFields (v : PlanValues) : Prop where
  frac : v.frac < 4096
  modulus : v.modulus < 4096
  stages : v.stages ≤ 6
  one_le_r : 1 ≤ v.r
  r_le : v.r ≤ 1023
  div2 : v.div2 ≤ 1
  doubler : v.doubler ≤ 1

theorem planCompute_ok_fitsFields {p : Params} {ref target m : Nat} {path : RefPath} {v : PlanValues}
    (hv : planCompute p ref target m path = .ok v) : FitsFields v := by
  obtain ⟨k, d, h, r, f, hm2, hm, -, -, hk, -, -, -, hpath, -, rfl⟩ := planCompute_ok hv
  obtain ⟨hd, hh, hr1, hr⟩ := refPathSelect_bounds hpath
  have hfrac : target * 2 ^ k * m / f % m < m := Nat.mod_lt _ (by omega)
  exact ⟨lt_of_lt_of_le hfrac (by omega), Nat.lt_succ_of_le hm, hk, hr1, hr, hh, hd⟩

/-- The twelve fields hold these values; INT is raised to the prescaler's floor and cut to 16 bits (R123, R124). -/
structure HoldsPlan (c : EnumCodes) (v : PlanValues) (x : Words) : Prop where
  frac : fieldValue x .frac = v.frac
  int : fieldValue x .int = max v.int (intFloor v.psc) % 65536
  mod : fieldValue x .mod = v.modulus
  prescaler : fieldValue x .prescaler = prescalerCode c v.psc
  rfDividerSelect : fieldValue x .rfDividerSelect = v.stages
  feedbackSelect : fieldValue x .feedbackSelect = c.fbFundamental.toNat
  ldf : fieldValue x .ldf = c.ldfFrac.toNat
  ldp : fieldValue x .ldp = c.ldpFrac.toNat
  antiBacklashWidth : fieldValue x .antiBacklashWidth = c.abpFrac.toNat
  rCounter : fieldValue x .rCounter = v.r
  rdiv2 : fieldValue x .rdiv2 = v.div2
  refDoubler : fieldValue x .refDoubler = v.doubler

/-- One of the twelve fields after PLAN: the prepared value, masked to the width (R93, R124). -/
theorem fieldValue_plannedWords {c : EnumCodes} {v : PlanValues} (x : Words) {g : RegField} {n : Nat}
    (h : (g, n) ∈ planWrites c v) : fieldValue (plannedWords c v x) g = prepare g n v.psc % 2 ^ g.desc.width := by
  rw [← getField_eq_fieldValue]
  exact getField_applyWrites_mem _ _ _ planFields_nodup h

/-- The same where neither clamp nor mask changes the value. -/
theorem fieldValue_plannedWords_of_fits {c : EnumCodes} {v : PlanValues} (x : Words) {g : RegField} {n : Nat}
    (h : (g, n) ∈ planWrites c v) (hprep : prepare g n v.psc = n) (hlt : n < 2 ^ g.desc.width) :
    fieldValue (plannedWords c v x) g = n := by
  rw [fieldValue_plannedWords x h, hprep, Nat.mod_eq_of_lt hlt]

theorem prescalerCode_lt_two (c : EnumCodes) (psc : Prescaler) : prescalerCode c psc < 2 := by
  cases psc
  · exact c.pscLow.isLt
  · exact c.pscHigh.isLt

theorem plannedWords_holdsPlan (c : EnumCodes) {v : PlanValues} (x : Words) (hv : FitsFields v) :
    HoldsPlan c v (plannedWords c v x) := by
  obtain ⟨hfrac, hmod, hstages, hr1, hr, hdiv2, hdoubler⟩ := hv
  have hclamp : clamp v.r rMin rMax = v.r := by
    simp only [clamp, rMin, rMax]
    omega
  exact {
    frac := fieldValue_plannedWords_of_fits x (by simp [planWrites]) rfl hfrac
    int := fieldValue_plannedWords x (by simp [planWrites])
    mod := fieldValue_plannedWords_of_fits x (by simp [planWrites]) rfl hmod
    prescaler := fieldValue_plannedWords_of_fits x (by simp [planWrites]) rfl (prescalerCode_lt_two c v.psc)
    rfDividerSelect := fieldValue_plannedWords_of_fits x (by simp [planWrites]) (min_eq_left hstages)
      (lt_of_le_of_lt hstages (by decide))
    feedbackSelect := fieldValue_plannedWords_of_fits x (by simp [planWrites]) rfl c.fbFundamental.isLt
    ldf := fieldValue_plannedWords_of_fits x (by simp [planWrites]) rfl c.ldfFrac.isLt
    ldp := fieldValue_plannedWords_of_fits x (by simp [planWrites]) rfl c.ldpFrac.isLt
    antiBacklashWidth := fieldValue_plannedWords_of_fits x (by simp [planWrites]) rfl c.abpFrac.isLt
    rCounter := fieldValue_plannedWords_of_fits x (by simp [planWrites]) hclamp (Nat.lt_succ_of_le hr)
    rdiv2 := fieldValue_plannedWords_of_fits x (by simp [planWrites]) rfl (Nat.lt_succ_of_le hdiv2)
    refDoubler := fieldValue_plannedWords_of_fits x (by simp [planWrites]) rfl (Nat.lt_succ_of_le hdoubler) }

/-! ## What a list of field writes leaves alone -/

/-- A field write leaves the bits of no field (R19). -/
theorem setField_and_unassigned (f : RegField) (v : Nat) (x : Words) (a : Reg) :
    (setField f v x).get a &&& a.unassigned = x.get a &&& a.unassigned := by
  apply BitVec.eq_of_getLsbD_eq
  intro i hi
  rw [BitVec.getLsbD_and, BitVec.getLsbD_and, setField_getLsbD]
  split_ifs with ha htag hfield
  · have hassigned : a.unassigned.getLsbD i = false := by cases a <;> interval_cases i <;> decide
    rw [hassigned, Bool.and_false, Bool.and_false]
  · rw [ha, field_bits_assigned f i hfield.1 hfield.2, Bool.and_false, Bool.and_false]
  · rfl
  · rfl

/-- A field write leaves the register's own tag in it (R11). -/
theorem setField_tag (f : RegField) (v : Nat) (x : Words) :
    ((setField f v x).get f.desc.reg).toNat % 8 = f.desc.reg.number :=
  low_bits_eq_of_tag fun i hi => by rw [setField_getLsbD, if_pos rfl, if_pos hi]

theorem get_setField_of_reg_ne {f : RegField} {a : Reg} (v : Nat) (x : Words) (h : a ≠ f.desc.reg) :
    (setField f v x).get a = x.get a := get_set_other x _ h

/-- A tag that stands is kept by every field write. -/
theorem setField_keeps_tag (f : RegField) (v : Nat) {x : Words} {a : Reg} (h : (x.get a).toNat % 8 = a.number) :
    ((setField f v x).get a).toNat % 8 = a.number := by
  by_cases ha : a = f.desc.reg
  · rw [ha]
    exact setField_tag f v x
  · rw [get_setField_of_reg_ne v x ha]
    exact h

section ApplyWrites

variable (psc : Prescaler) (ws : List (RegField × Nat)) {x : Words}

theorem applyWrites_and_unassigned (a : Reg) : (applyWrites psc ws x).get a &&& a.unassigned = x.get a &&& a.unassigned :=
  List.foldlRecOn (motive := fun y : Words => y.get a &&& a.unassigned = x.get a &&& a.unassigned) ws _ rfl
    fun _ hy _ _ => (setField_and_unassigned _ _ _ a).trans hy

/-- A register that no write names keeps its word. -/
theorem get_applyWrites_of_reg_ne {a : Reg} (h : ∀ w ∈ ws, a ≠ w.1.desc.reg) : (applyWrites psc ws x).get a = x.get a :=
  List.foldlRecOn (motive := fun y : Words => y.get a = x.get a) ws _ rfl
    fun _ hy w hw => (get_setField_of_reg_ne _ _ (h w hw)).trans hy

theorem applyWrites_keeps_tag {a : Reg} (h : (x.get a).toNat % 8 = a.number) :
    ((applyWrites psc ws x).get a).toNat % 8 = a.number :=
  List.foldlRecOn (motive := fun y : Words => (y.get a).toNat % 8 = a.number) ws _ h
    fun _ hy _ _ => setField_keeps_tag _ _ hy

/-- A register that some write names holds its tag afterwards, whatever it held before (R11). -/
theorem applyWrites_tag {a : Reg} (h : ∃ w ∈ ws, w.1.desc.reg = a) :
    ((applyWrites psc ws x).get a).toNat % 8 = a.number := by
  induction ws generalizing x with
  | nil => simp at h
  | cons w ws ih =>
    obtain ⟨w', hmem, rfl⟩ := h
    rcases List.mem_cons.1 hmem with rfl | hmem
    · exact applyWrites_keeps_tag psc ws (setField_tag _ _ x)
    · exact ih ⟨w', hmem, rfl⟩

/-- In a legal Register Set a bit outside the written fields keeps its value (R93, R124). -/
theorem applyWrites_getLsbD_of_wf (hwf : x.wf = true) {a : Reg} {i : Nat}
    (h : ∀ w ∈ ws, ¬(w.1.desc.reg = a ∧ w.1.desc.offset ≤ i ∧ i < w.1.desc.offset + w.1.desc.width)) :
    ((applyWrites psc ws x).get a).getLsbD i = (x.get a).getLsbD i := by
  refine (List.foldlRecOn (motive := fun y : Words => y.wf = true ∧ (y.get a).getLsbD i = (x.get a).getLsbD i) ws _
    ⟨hwf, rfl⟩ fun y hy w hw => ?_).2
  obtain ⟨hywf, hbit⟩ := hy
  refine ⟨rsetWords_wf _ _ _ hywf, ?_⟩
  rw [rsetWords, setField_getLsbD_of_wf hywf, if_neg fun hin => h w hw ⟨hin.1.symm, hin.2⟩]
  exact hbit

end ApplyWrites

/-- The written fields are the twelve of R124. -/
theorem fst_mem_planFields {c : EnumCodes} {v : PlanValues} {w : RegField × Nat} (hw : w ∈ planWrites c v) :
    w.1 ∈ planFields := List.mem_map_of_mem (f := Prod.fst) hw

/-- Every register but R5 holds one of the twelve fields. -/
theorem exists_planWrites_of_ne_r5 (c : EnumCodes) (v : PlanValues) {a : Reg} (ha : a ≠ .r5) :
    ∃ w ∈ planWrites c v, w.1.desc.reg = a := by
  have hfield : ∃ f ∈ planFields, f.desc.reg = a := by
    revert ha
    cases a <;> decide
  obtain ⟨f, hf, hreg⟩ := hfield
  rw [← planWrites_fields c v] at hf
  obtain ⟨w, hw, rfl⟩ := List.mem_map.1 hf
  exact ⟨w, hw, hreg⟩

theorem fieldValue_plannedWords_other (c : EnumCodes) (v : PlanValues) (x : Words) {g : RegField} (hg : g ∉ planFields) :
    fieldValue (plannedWords c v x) g = fieldValue x g := by
  rw [← getField_eq_fieldValue, ← getField_eq_fieldValue]
  exact getField_applyWrites_other _ _ _ hg

/-- None of the twelve fields lies in R5. -/
theorem plannedWords_r5 (c : EnumCodes) (v : PlanValues) (x : Words) : (plannedWords c v x).r5 = x.r5 := by
  have hreg : ∀ f ∈ planFields, .r5 ≠ f.desc.reg := by decide
  exact get_applyWrites_of_reg_ne (a := .r5) _ _ fun w hw => hreg _ (fst_mem_planFields hw)

/-! ## After a PLAN that ended Ok -/

/-- A PLAN that ends Ok has derived values, which the twelve fields of its Register Set hold (R113, R124). -/
theorem plan_ok {ref target : Dword} {m : BitVec 16} {path : RefPath} {s t : State}
    (h : exec (.plan ref target m path) s = .next t) (hok : t.status = .ok) :
    ∃ v, planCompute s.params ref.toNat target.toNat m.toNat path = .ok v ∧ t.params = s.params ∧
      t.x = plannedWords s.params.codes v s.x ∧ HoldsPlan s.params.codes v t.x := by
  obtain ⟨st, herr, rfl⟩ | ⟨v, hv, rfl⟩ := plan_cases h
  · exact absurd hok (planCompute_error_ne_ok herr)
  · exact ⟨v, hv, rfl, rfl, plannedWords_holdsPlan _ _ (planCompute_ok_fitsFields hv)⟩

/-- INT times f_pfd plus the fractional part gives back the VCO frequency, where `f` divides its multiple by the modulus. -/
theorem int_part_add_frac_part {n f m : Nat} (hm : 0 < m) (hexact : n % f = 0) :
    n / f / m * f + n / f % m * f / m = n / m := by
  calc n / f / m * f + n / f % m * f / m
      = (m * (n / f / m * f) + n / f % m * f) / m := (Nat.mul_add_div hm _ _).symm
    _ = (m * (n / f / m) + n / f % m) * f / m := by rw [add_mul, mul_assoc]
    _ = n / m := by rw [Nat.div_add_mod, Nat.div_mul_cancel (Nat.dvd_of_mod_eq_zero hexact)]

/-- FOUT's formula undoes PLAN's where the quotient is exact and INT is neither raised nor cut (R129). -/
theorem foutValue_of_holdsPlan {c : EnumCodes} {target k d h r m f : Nat} {x : Words}
    (holds : HoldsPlan c (derivedValues target k d h r m f) x) (hm : 0 < m) (hexact : target * 2 ^ k * m % f = 0)
    (hfloor : intFloor (selectPrescaler target) ≤ target * 2 ^ k * m / f / m)
    (hfits : target * 2 ^ k * m / f / m < 65536) : foutValue x f = target := by
  have hint : fieldValue x .int = target * 2 ^ k * m / f / m := by
    rw [← Nat.mod_eq_of_lt hfits, ← max_eq_left hfloor]
    exact holds.int
  rw [foutValue, hint, holds.frac, holds.mod, holds.rfDividerSelect]
  calc (target * 2 ^ k * m / f / m * f + target * 2 ^ k * m / f % m * f / m) / 2 ^ k
      = target * 2 ^ k * m / m / 2 ^ k := by rw [int_part_add_frac_part hm hexact]
    _ = target := by rw [Nat.mul_div_cancel _ hm, Nat.mul_div_cancel _ (Nat.two_pow_pos k)]

/-! ## The obligations -/

/-- Settles O25: valid parameters leave only the phase-detector checks, which pass; the rest is what the twelve writes leave. -/
theorem planWritesTwelveFields : Obligations.PlanWritesTwelveFields := by
  intro ref target m path s d h r hvalid hm2 hm hlo hhi hreflo hrefhi hpath hceil
  have hselect : refPathSelect s.params ref.toNat path = (d, h, r) := by
    rw [hpath]
    cases path <;> rfl
  obtain ⟨-, -, hr, -⟩ := refPathSelect_bounds hselect
  obtain ⟨k, hk, hplan, hmin, hmax, hbelow⟩ := planCompute_of_valid hvalid hm2 hm hlo hhi hselect
  rw [pfdChecked_of_pass hreflo hrefhi (by omega) hceil] at hplan
  have holds := plannedWords_holdsPlan s.params.codes s.x (planCompute_ok_fitsFields hplan)
  refine ⟨k, _, plan_completes hplan, hk, hmin, hmax, hbelow, ⟨holds.frac, ?_⟩, holds.mod, ?_, holds.rfDividerSelect,
    holds.feedbackSelect, holds.ldf, holds.ldp, holds.antiBacklashWidth, holds.rCounter, holds.rdiv2, holds.refDoubler,
    fun g hg => fieldValue_plannedWords_other _ _ _ hg, plannedWords_r5 _ _ _, applyWrites_and_unassigned _ _,
    fun a ha => applyWrites_tag _ _ (exists_planWrites_of_ne_r5 _ _ ha), fun hwf a i hout => ?_⟩
  · rw [← intFloor_selectPrescaler]
    exact holds.int
  · rw [← prescalerCode_selectPrescaler]
    exact holds.prescaler
  · exact applyWrites_getLsbD_of_wf _ _ hwf fun w hw => hout w.1 (fst_mem_planFields hw)

/-- Settles O26: each check of `planCompute` in its turn; the Register Set changes only where PLAN ends Ok. -/
theorem planErrorsInOrder : Obligations.PlanErrorsInOrder := by
  intro ref target m path s
  refine ⟨fun t ht hne => ?_, fun hm => plan_endsIn (planCompute_of_bad_modulus hm),
    fun hm2 hm hrange => plan_endsIn (planCompute_of_target_out_of_range hm2 hm hrange),
    fun hm2 hm hvalid hlo hhi => ⟨fun href => ?_, ?_⟩⟩
  · obtain ⟨st, -, rfl⟩ | ⟨v, -, rfl⟩ := plan_cases ht
    · exact raise_x st s
    · exact absurd rfl hne
  · exact plan_endsIn (planCompute_of_pfd_error hvalid hm2 hm hlo hhi rfl (pfdChecked_of_ref_out_of_range href))
  · rintro a b c rfl hreflo hrefhi hceil
    have hr : min (max c.toNat 1) 1023 ≠ 0 := by omega
    exact plan_endsIn (planCompute_of_pfd_error hvalid hm2 hm hlo hhi rfl
      (pfdChecked_of_above_ceiling hreflo hrefhi hr hceil))

/-- Settles O30: each check of `foutCompute` in its turn. -/
theorem foutOutcomesInOrder : Obligations.FoutOutcomesInOrder := by
  rintro ref s f v rfl rfl
  refine ⟨fun href => ?_, fun hlo hhi => ⟨fun hr => ?_, fun hr => ⟨fun hceil => ?_, fun hceil => ?_⟩⟩⟩
  · exact fout_endsIn (foutCompute_of_pfd_error (pfdChecked_of_ref_out_of_range href))
  · exact fout_endsIn (foutCompute_of_pfd_error (pfdChecked_of_r_eq_zero hlo hhi hr))
  · exact fout_endsIn (foutCompute_of_pfd_error (pfdChecked_of_above_ceiling hlo hhi hr hceil))
  have hpfd := pfdChecked_of_pass hlo hhi hr hceil
  refine ⟨fun hmod => fout_endsIn ?_, fun hmod => ⟨fun hrange => fout_endsIn ?_, fun hmin hmax => ?_⟩⟩
  · rw [foutCompute_of_pfd_ok hpfd, if_pos hmod]
  · rw [foutCompute_of_pfd_ok hpfd, if_neg hmod]
    exact if_pos hrange
  · exact fout_completes (foutCompute_of_pass hpfd hmod hmin hmax)

/-- Settles O31: FOUT reads back the phase-detector frequency PLAN used, and its sum is the exact quotient PLAN divided. -/
theorem planThenFoutReturnsTarget : Obligations.PlanThenFoutReturnsTarget := by
  intro ref target m path s t f n hexec hok hf hn hexact hfloor hfits
  obtain ⟨v, hv, hparams, -, holds⟩ := plan_ok hexec hok
  obtain ⟨k, d, h, r, f', hm2, -, hlo, hhi, -, -, -, -, -, hpfd, rfl⟩ := planCompute_ok hv
  obtain rfl : fieldValue t.x .refDoubler = d := holds.refDoubler
  obtain rfl : fieldValue t.x .rCounter = r := holds.rCounter
  obtain rfl : fieldValue t.x .rdiv2 = h := holds.rdiv2
  obtain rfl : fieldValue t.x .rfDividerSelect = k := holds.rfDividerSelect
  obtain ⟨-, -, -, -, hraw⟩ := pfdChecked_ok hpfd
  obtain rfl : f' = f := hraw.trans hf.symm
  subst hn
  rw [← intFloor_selectPrescaler] at hfloor
  have hvalue : foutValue t.x f' = target.toNat := foutValue_of_holdsPlan holds (by omega) hexact hfloor hfits
  have hmod : fieldValue t.x .mod = m.toNat := holds.mod
  rw [← hparams] at hpfd hlo hhi
  rw [← hvalue] at hlo hhi
  have hcompletes := fout_completes (foutCompute_of_pass hpfd (by omega) hlo hhi)
  rwa [hvalue, BitVec.ofNat_toNat, BitVec.setWidth_eq] at hcompletes

/-- Settles O23: each check of `pfdChecked` in its turn. -/
theorem pfdOutcomesInOrder : Obligations.PfdOutcomesInOrder :=
  fun _ _ _ _ _ =>
    ⟨fun href => pfd_endsIn (pfdChecked_of_ref_out_of_range href),
     fun hlo hhi hr => pfd_endsIn (pfdChecked_of_r_eq_zero hlo hhi hr),
     fun hlo hhi hr hceil => pfd_endsIn (pfdChecked_of_above_ceiling hlo hhi hr hceil),
     fun hlo hhi hr hceil => pfd_completes (pfdChecked_of_pass hlo hhi hr hceil)⟩

end Sys2Proof.Machine
end

section
/-! PROOFS of 43_device_writer.md. What one word write and the loop of PROG add to the wire history. -/

namespace Sys2Proof.Machine

/-! ## One word -/

@[simp] theorem takeAnswer_hist (s : State) : (takeAnswer s).2.hist = s.hist := by rw [takeAnswer_frame]

/-- The event a word write records is the one of the Device Writer's answer (R141, R148). -/
theorem sendWord_hist_cases (w : Word) (s : State) :
    (∃ s1, sendWord w s = (.ok, s1) ∧ s1.hist = s.hist ++ [.written w]) ∨
    (∃ e s1, sendWord w s = (.error e, s1) ∧ s1.hist = s.hist ++ [.failed w e]) := by
  have hhist := takeAnswer_hist s
  obtain ⟨s1, htake, hsend⟩ | ⟨e, s1, htake, hsend⟩ := sendWord_cases w s <;> rw [htake] at hhist
  · exact .inl ⟨_, hsend, by rw [record_hist, memWrite_hist, hhist]⟩
  · exact .inr ⟨e, _, hsend, by rw [record_hist, failedWrite_hist, hhist]⟩

/-! ## The loop of PROG -/

/-- The loop writes all its words and ends Ok, or it stops at its first failure: the words before that one are written, that one
failed, and no later word leaves an event (R144, R145). -/
theorem sendWords_hist_cases (ws : List Word) (n : Nat) (s : State) :
    ((sendWords ws n s).status = .ok ∧ (sendWords ws n s).hist = s.hist ++ ws.map .written) ∨
    (∃ i < ws.length, ∃ e, (sendWords ws n s).status = .ofTransport e ∧
      (sendWords ws n s).hist =
        s.hist ++ (ws.take i).map .written ++ ((ws.drop i).take 1).map fun w => .failed w e) := by
  induction ws generalizing n s with
  | nil => exact .inl ⟨rfl, (List.append_nil _).symm⟩
  | cons w ws ih =>
    rw [sendWords_cons]
    obtain ⟨s1, hsend, hhist⟩ | ⟨e, s1, hsend, hhist⟩ := sendWord_hist_cases w s <;> rw [hsend]
    · obtain ⟨hstatus, hrest⟩ | ⟨i, hi, e, hstatus, hrest⟩ := ih (n + 1) s1
      · exact .inl ⟨hstatus, by simp [hrest, hhist]⟩
      · exact .inr ⟨i + 1, Nat.succ_lt_succ hi, e, hstatus, by simp [hrest, hhist]⟩
    · exact .inr ⟨0, Nat.succ_pos _, e, rfl, by simp [hhist]⟩

/-! ## The wire image as events -/

theorem statusOfError_eq_ofTransport (e : TransportError) : statusOfError e = .ofTransport e := by cases e <;> rfl

theorem wireImage_eq_map_wireOrder (x : Words) : wireImage x = wireOrder.map (taggedWord x) := rfl

theorem writtenEvents_eq_map_take_wireImage (x : Words) (n : Nat) :
    writtenEvents x n = ((wireImage x).take n).map .written := by
  rw [wireImage_eq_map_wireOrder, ← List.map_take, List.map_map]
  rfl

theorem failedEvent_eq_map_drop_wireImage (x : Words) (n : Nat) (e : TransportError) :
    failedEvent x n e = (((wireImage x).drop n).take 1).map fun w => .failed w e := by
  rw [wireImage_eq_map_wireOrder, ← List.map_drop, ← List.map_take, List.map_map]
  rfl

/-! ## The obligations -/

/-- Settles O38: the loop's two outcomes on the wire image, whose words are the register words as PROG found them. -/
theorem progHistoryGrowth : Obligations.ProgHistoryGrowth := by
  intro s
  obtain ⟨hx, -⟩ := sendWords_frame (wireImage s.x) 0 s
  refine ⟨_, rfl, hx, ?_⟩
  obtain ⟨hstatus, hhist⟩ | ⟨i, hi, e, hstatus, hhist⟩ := sendWords_hist_cases (wireImage s.x) 0 s
  · refine .inl ⟨hstatus, ?_⟩
    rw [writtenEvents_eq_map_take_wireImage]
    exact hhist
  · refine .inr ⟨i, hi, e, ?_, ?_⟩
    · rw [statusOfError_eq_ofTransport]
      exact hstatus
    · rw [writtenEvents_eq_map_take_wireImage, failedEvent_eq_map_drop_wireImage]
      exact hhist

end Sys2Proof.Machine
end

section
/-! PROOFS of 60_exceptions.md. An operation that does not end Ok writes no register, and without a transport error it touches
nothing of the chip. -/

namespace Sys2Proof.Machine

/-! ## The Register Set -/

theorem wwrite_keeps_registers {w : Word} {s t : State} (he : exec (.wwrite w) s = .next t) : t.x = s.x := by
  cases he
  exact (writeWord_frame w s).1

theorem prog_keeps_registers {s t : State} (he : exec .prog s = .next t) : t.x = s.x := by
  cases he
  exact (sendWords_frame (wireImage s.x) 0 s).1

/-- RSDEF and RSET always end Ok, PLAN writes only where it ends Ok, and no other operation writes at all (R12, R125). -/
theorem exec_keeps_registers_of_status_ne_ok {i : Instr} {s t : State} (he : exec i s = .next t) (hok : t.status ≠ .ok) :
    t.x = s.x := by
  cases i
  case rsdef | rset =>
    cases he
    exact absurd rfl hok
  case plan =>
    obtain ⟨st, -, rfl⟩ | ⟨v, -, rfl⟩ := plan_cases he
    · rfl
    · exact absurd rfl hok
  case wwrite => exact wwrite_keeps_registers he
  case prog => exact prog_keeps_registers he
  case fget | fset | pfd | fout =>
    cases he
    exact conclude_x _ s
  all_goals
    cases he
    rfl

/-! ## The wire and the chip -/

theorem ofTransport_eq_busError_or_pinError (e : TransportError) :
    Status.ofTransport e = .busError ∨ Status.ofTransport e = .pinError := by
  cases e
  · exact .inl rfl
  · exact .inr rfl

/-- WWRITE that ends in neither Ok nor a transport error ended in BadTag, with nothing sent (R142). -/
theorem writeWord_sameChip_of_no_transport {w : Word} {s : State} (hok : (writeWord w s).status ≠ .ok)
    (htransport : ∀ e, (writeWord w s).status ≠ .ofTransport e) : SameChip s (writeWord w s) := by
  obtain ⟨-, hw⟩ | ⟨_, _, -, -, hw⟩ | ⟨_, e, _, -, -, hw⟩ := writeWord_cases w s
  · rw [hw]
    exact raise_sameChip .badTag s
  · exact absurd (congrArg State.status hw) hok
  · exact absurd (congrArg State.status hw) (htransport e)

/-- PROG ends in Ok or in a transport error (R144, R145). -/
theorem prog_status_cases {s t : State} (he : exec .prog s = .next t) :
    t.status = .ok ∨ ∃ e, t.status = .ofTransport e := by
  cases he
  obtain ⟨hstatus, -⟩ | ⟨_, -, e, hstatus, -⟩ := sendWords_hist_cases (wireImage s.x) 0 s
  · exact .inl hstatus
  · exact .inr ⟨e, hstatus⟩

/-- An error or fault other than a transport error comes before anything is sent (R153). -/
theorem exec_sameChip_of_no_transport {i : Instr} {s t : State} (he : exec i s = .next t) (hok : t.status ≠ .ok)
    (htransport : ∀ e, t.status ≠ .ofTransport e) : SameChip s t := by
  cases i
  case wwrite w =>
    cases he
    exact writeWord_sameChip_of_no_transport hok htransport
  case prog =>
    obtain hstatus | ⟨e, hstatus⟩ := prog_status_cases he
    · exact absurd hstatus hok
    · exact absurd hstatus (htransport e)
  all_goals exact exec_sameChip he nofun nofun

/-! ## The obligation -/

/-- Settles O43: the registers by the operations that write them, the chip by the two operations that reach it. -/
theorem errorsLeaveRegisterSet : Obligations.ErrorsLeaveRegisterSet := by
  intro i s t he
  refine ⟨fun hok => ⟨exec_keeps_registers_of_status_ne_ok he hok, fun hbus hpin => ?_⟩, ?_⟩
  · refine exec_sameChip_of_no_transport he hok fun e hstatus => ?_
    obtain h | h := ofTransport_eq_busError_or_pinError e
    · exact hbus (hstatus.trans h)
    · exact hpin (hstatus.trans h)
  · rintro (⟨w, rfl⟩ | rfl)
    · exact wwrite_keeps_registers he
    · exact prog_keeps_registers he

end Sys2Proof.Machine
end

section
/-! PROOFS of 30_encoding.md. Match and mask of an opcode-table row as numbers, what each decoder answers as an equivalence, and
the field table. -/

namespace Sys2Proof.Machine

/-! ## A mask as blocks of bits -/

/-- Two words agree under the in-word mask of a field exactly where they agree in the field's number. -/
theorem and_mask_shiftLeft_eq_iff (w v : Word) {o n : Nat} (h : o + n ≤ 32) :
    w &&& (mask n <<< o) = v &&& (mask n <<< o) ↔ w.toNat / 2 ^ o % 2 ^ n = v.toNat / 2 ^ o % 2 ^ n := by
  rw [← fieldGet_toNat w o (by omega), ← fieldGet_toNat v o (by omega), ← BitVec.toNat_eq]
  constructor <;> intro heq <;> apply BitVec.eq_of_getLsbD_eq <;> intro i hi
  · have hbit := congrArg (fun b : Word => b.getLsbD (o + i)) heq
    simp only [BitVec.getLsbD_and, mask_shiftLeft_getLsbD] at hbit
    rw [fieldGet_getLsbD, fieldGet_getLsbD]
    by_cases hin : i < n
    · have hmem : o + i < o + n ∧ o + i < 32 := by omega
      simpa [hi, hmem, hin] using hbit
    · simp [hin]
  · have hbit := congrArg (fun b : Word => b.getLsbD (i - o)) heq
    simp only [fieldGet_getLsbD] at hbit
    simp only [BitVec.getLsbD_and, mask_shiftLeft_getLsbD]
    by_cases hin : o ≤ i ∧ i < o + n
    · have hpos : o + (i - o) = i := by omega
      have hmem : i - o < 32 ∧ i - o < n := by omega
      simpa [hi, hpos, hmem, hin] using hbit
    · have hout : ¬(o ≤ i ∧ i < o + n ∧ i < 32) := by tauto
      simp [hout]

/-- A mask made of two parts is met exactly where both parts are. -/
theorem and_or_eq_iff (w v a b : Word) :
    w &&& (a ||| b) = v &&& (a ||| b) ↔ w &&& a = v &&& a ∧ w &&& b = v &&& b := by
  constructor
  · intro h
    have absorb (c d : Word) : (c ||| d) &&& c = c := by
      apply BitVec.eq_of_getLsbD_eq
      intro i hi
      rw [BitVec.getLsbD_and, BitVec.getLsbD_or]
      cases c.getLsbD i <;> simp
    have key (c : Word) (hc : (a ||| b) &&& c = c) : w &&& c = v &&& c := by
      rw [← hc, ← BitVec.and_assoc, ← BitVec.and_assoc, h]
    exact ⟨key a (absorb a b), key b (BitVec.or_comm a b ▸ absorb b a)⟩
  · rintro ⟨ha, hb⟩
    rw [BitVec.and_or_distrib_left, ha, hb, ← BitVec.and_or_distrib_left]

/-- The mask of several blocks of bits, each given by its offset and width. -/
def blocksMask : List (Nat × Nat) → Word
  | [] => 0
  | b :: bs => (mask b.2 <<< b.1) ||| blocksMask bs

/-- A word fits match `v` and mask `m` exactly where it agrees with `v` in the number of every block of the mask. -/
theorem and_eq_iff_of_blocks (w m v : Word) (bs : List (Nat × Nat)) (h : bs.Forall fun b => b.1 + b.2 ≤ 32)
    (hmask : blocksMask bs = m) (hmatch : v &&& m = v) :
    w &&& m = v ↔ bs.Forall fun b => w.toNat / 2 ^ b.1 % 2 ^ b.2 = v.toNat / 2 ^ b.1 % 2 ^ b.2 := by
  have key : w &&& blocksMask bs = v &&& blocksMask bs ↔
      bs.Forall fun b => w.toNat / 2 ^ b.1 % 2 ^ b.2 = v.toNat / 2 ^ b.1 % 2 ^ b.2 := by
    clear hmask
    induction bs with
    | nil => simp [blocksMask]
    | cons b bs ih =>
      obtain ⟨hb, hbs⟩ := (List.forall_cons _ _ _).1 h
      rw [blocksMask, and_or_eq_iff, and_mask_shiftLeft_eq_iff w v hb, ih hbs, List.forall_cons]
  rw [← key, hmask, hmatch]

/-- Extracting bits is a division and a remainder. -/
theorem extractLsb'_eq_iff {n o k : Nat} (w : BitVec n) (v : BitVec k) :
    w.extractLsb' o k = v ↔ w.toNat / 2 ^ o % 2 ^ k = v.toNat := by
  rw [BitVec.toNat_eq, BitVec.extractLsb'_toNat, Nat.shiftRight_eq_div_pow]

/-! ## The sub-fields of a command (R71 to R73) -/

theorem splitCw_eq_iff (cw : Word) (f : CmdFields) :
    splitCw cw = f ↔ cw.toNat / 2 ^ 28 % 2 ^ 4 = f.opcode.toNat ∧ cw.toNat / 2 ^ 22 % 2 ^ 6 = f.fid.toNat ∧
      cw.toNat / 2 ^ 17 % 2 ^ 5 = f.offset.toNat ∧ cw.toNat / 2 ^ 12 % 2 ^ 5 = f.widthm1.toNat ∧
      cw.toNat / 2 ^ 4 % 2 ^ 8 = f.zero.toNat ∧ cw.toNat / 2 ^ 3 % 2 ^ 1 = f.psc.toNat ∧ cw.toNat % 2 ^ 3 = f.ra.toNat := by
  cases f
  simp only [splitCw, CmdFields.mk.injEq, extractLsb'_eq_iff, pow_zero, Nat.div_one]

theorem splitCfg_eq_iff (opC : Dword) (f : CfgFields) :
    splitCfg opC = f ↔ opC.toNat % 2 ^ 16 = f.modulus.toNat ∧ opC.toNat / 2 ^ 16 % 2 ^ 16 = f.rCounter.toNat ∧
      opC.toNat / 2 ^ 32 % 2 ^ 1 = f.doubler.toNat ∧ opC.toNat / 2 ^ 33 % 2 ^ 1 = f.div2.toNat ∧
      opC.toNat / 2 ^ 34 % 2 ^ 1 = f.manual.toNat ∧ opC.toNat / 2 ^ 35 % 2 ^ 29 = f.zero.toNat := by
  cases f
  simp only [splitCfg, CfgFields.mk.injEq, extractLsb'_eq_iff, pow_zero, Nat.div_one]

@[simp] theorem splitCfg_joinCfg (f : CfgFields) : splitCfg (joinCfg f) = f := by
  rw [splitCfg_eq_iff]
  simp only [joinCfg, append_toNat]
  omega

@[simp] theorem pscOfBit_pscBit (psc : Prescaler) : pscOfBit (pscBit psc) = psc := by cases psc <;> rfl

@[simp] theorem pscBit_pscOfBit (b : BitVec 1) : pscBit (pscOfBit b) = b := by
  revert b
  decide

@[simp] theorem bitOfBool_boolOfBit (b : BitVec 1) : bitOfBool (boolOfBit b) = b := by
  revert b
  decide

@[simp] theorem boolOfBit_bitOfBool (d : Bool) : boolOfBit (bitOfBool d) = d := by cases d <;> rfl

theorem bitOfBool_toNat (d : Bool) : (bitOfBool d).toNat = d.toNat := by cases d <;> rfl

/-- No field but the one of its position in the table has an identifier (R57). -/
theorem fid_of_ofFid {n : BitVec 6} {f : RegField} (h : RegField.ofFid n = some f) : f.fid = n := by
  obtain ⟨hlt, rfl⟩ := List.getElem?_eq_some_iff.1 h
  have hnodup : RegField.all.Nodup := by decide
  rw [RegField.fid, hnodup.idxOf_getElem _ hlt, BitVec.ofNat_toNat, BitVec.setWidth_eq]

theorem ofBits_eq_some_iff (b : BitVec 3) (a : Reg) : Reg.ofBits b = some a ↔ b = BitVec.ofNat 3 a.number := by
  revert b
  cases a <;> decide

theorem number_toNat (a : Reg) : (BitVec.ofNat 3 a.number).toNat = a.number := by cases a <;> rfl

/-! ## The operand ports (R72, R73) -/

theorem wordOperand_eq_some_iff (opA : Dword) (w : Word) : wordOperand opA = some w ↔ w.toNat = opA.toNat := by
  rw [wordOperand, Option.ite_none_right_eq_some, Option.some_inj, extractLsb'_eq_iff, extractLsb'_eq_iff]
  simp only [BitVec.ofNat_eq_ofNat, BitVec.toNat_ofNat]
  omega

/-- The configuration operand of PFD. -/
def pfdCfgFields (d h : Bool) (r : BitVec 16) : CfgFields := { rCounter := r, doubler := bitOfBool d, div2 := bitOfBool h }

/-- The configuration operand of PLAN. -/
def planCfgFields (m : BitVec 16) : RefPath → CfgFields
  | .auto => { modulus := m }
  | .manual d h r => { modulus := m, rCounter := r, doubler := bitOfBool d, div2 := bitOfBool h, manual := 1 }

theorem pfdOperand_eq_some_iff (opC : Dword) (d h : Bool) (r : BitVec 16) :
    pfdOperand opC = some (d, h, r) ↔ splitCfg opC = pfdCfgFields d h r := by
  constructor
  · rw [pfdOperand, Option.ite_none_right_eq_some, pfdCfgFields]
    rintro ⟨hfields, hval⟩
    cases hval
    rwa [bitOfBool_boolOfBit, bitOfBool_boolOfBit]
  · intro hfields
    simp [pfdOperand, hfields, pfdCfgFields]

theorem planOperand_eq_some_iff (opC : Dword) (m : BitVec 16) (path : RefPath) :
    planOperand opC = some (m, path) ↔ splitCfg opC = planCfgFields m path := by
  constructor
  · intro h
    simp only [planOperand] at h
    split_ifs at h with hauto hmanual <;> cases h
    · exact hauto
    · rwa [planCfgFields, bitOfBool_boolOfBit, bitOfBool_boolOfBit]
  · intro hfields
    cases path <;> simp [planOperand, hfields, planCfgFields]

/-! ## The command decoder (R72)

`asksFor` is the table of R72 read from the instruction's side: the command's sub-fields and ports carry the instruction. -/

/-- The command word has the sub-fields of this operation and the ports it uses carry its operands. -/
def asksFor (c : Command) : Instr → Prop
  | .w0 .. | .w1 .. | .w2 .. | .w3 .. | .w4 .. | .w5 .. => False
  | .rsdef => splitCw c.cw = { opcode := 0 }
  | .fget o m w => splitCw c.cw = { opcode := 1, offset := o, widthm1 := m } ∧ wordOperand c.opA = some w
  | .fset o m w v => splitCw c.cw = { opcode := 2, offset := o, widthm1 := m } ∧ wordOperand c.opA = some w ∧ v = c.opB
  | .rget f => splitCw c.cw = { opcode := 3, fid := f.fid }
  | .rset f psc v => splitCw c.cw = { opcode := 4, fid := f.fid, psc := pscBit psc } ∧ pscAllowed f psc = true ∧ v = c.opA
  | .rword a => splitCw c.cw = { opcode := 5, ra := BitVec.ofNat 3 a.number }
  | .rser => splitCw c.cw = { opcode := 6 }
  | .pfd ref d h r => splitCw c.cw = { opcode := 7 } ∧ ref = c.opA ∧ pfdOperand c.opC = some (d, h, r)
  | .plan ref target m path =>
    splitCw c.cw = { opcode := 8 } ∧ ref = c.opA ∧ target = c.opB ∧ planOperand c.opC = some (m, path)
  | .fout ref => splitCw c.cw = { opcode := 9 } ∧ ref = c.opA
  | .wwrite w => splitCw c.cw = { opcode := 10 } ∧ wordOperand c.opA = some w
  | .prog => splitCw c.cw = { opcode := 11 }

theorem asksFor_of_decodeCommand {c : Command} {i : Instr} (h : decodeCommand c = some i) : asksFor c i := by
  simp only [decodeCommand] at h
  split at h
  case h_13 => cases h
  case h_1 | h_7 | h_12 =>
    split_ifs at h with hcw
    cases h
    exact hcw
  case h_10 =>
    split_ifs at h with hcw
    cases h
    exact ⟨hcw, rfl⟩
  case h_2 | h_11 =>
    split_ifs at h with hcw
    obtain ⟨w, hw, rfl⟩ := Option.map_eq_some_iff.1 h
    exact ⟨hcw, hw⟩
  case h_3 =>
    split_ifs at h with hcw
    obtain ⟨w, hw, rfl⟩ := Option.map_eq_some_iff.1 h
    exact ⟨hcw, hw, rfl⟩
  case h_4 =>
    split_ifs at h with hcw
    obtain ⟨f, hfid, rfl⟩ := Option.map_eq_some_iff.1 h
    rwa [asksFor, fid_of_ofFid hfid]
  case h_5 =>
    split_ifs at h with hcw
    split at h
    · next f hfid =>
      split_ifs at h with hpsc
      cases h
      rw [asksFor, fid_of_ofFid hfid, pscBit_pscOfBit]
      exact ⟨hcw, hpsc, rfl⟩
    · cases h
  case h_6 =>
    split_ifs at h with hcw
    obtain ⟨a, ha, rfl⟩ := Option.map_eq_some_iff.1 h
    rwa [asksFor, ← (ofBits_eq_some_iff _ a).1 ha]
  case h_8 =>
    split_ifs at h with hcw
    obtain ⟨r, hr, rfl⟩ := Option.map_eq_some_iff.1 h
    exact ⟨hcw, rfl, hr⟩
  case h_9 =>
    split_ifs at h with hcw
    obtain ⟨r, hr, rfl⟩ := Option.map_eq_some_iff.1 h
    exact ⟨hcw, rfl, rfl, hr⟩

theorem decodeCommand_of_asksFor {c : Command} {i : Instr} (h : asksFor c i) : decodeCommand c = some i := by
  cases i with
  | w0 | w1 | w2 | w3 | w4 | w5 => exact h.elim
  | rsdef | rser | prog | rget | rword =>
    rw [asksFor] at h
    simp [decodeCommand, h]
  | rset f psc v =>
    obtain ⟨hcw, hpsc, rfl⟩ := h
    simp [decodeCommand, hcw, hpsc]
  | fset | plan =>
    obtain ⟨hcw, hop, hop'⟩ := h
    simp [decodeCommand, hcw, hop, hop']
  | pfd | fget | fout | wwrite =>
    obtain ⟨hcw, hop⟩ := h
    simp [decodeCommand, hcw, hop]

theorem decodeCommand_eq_some_iff (c : Command) (i : Instr) : decodeCommand c = some i ↔ asksFor c i :=
  ⟨asksFor_of_decodeCommand, decodeCommand_of_asksFor⟩

theorem isOperation_of_asksFor {c : Command} {i : Instr} (h : asksFor c i) : isOperation i = true := by
  cases i with
  | w0 | w1 | w2 | w3 | w4 | w5 => exact h.elim
  | _ => rfl

/-- The encoder puts a well-formed operation into the command that asks for it. -/
theorem asksFor_of_encode {i : Instr} {c : Command} (hwf : i.wellFormed = true) (h : encode i = .command c) : asksFor c i := by
  have hword (w : Word) : wordOperand (w.setWidth 64) = some w := (wordOperand_eq_some_iff _ w).2 (toNat_setWidth_dword w).symm
  cases i <;> cases h
  case rsdef | rget | rword | rser | prog => exact splitCw_joinCw _
  case fget w | wwrite w => exact ⟨splitCw_joinCw _, hword w⟩
  case fset w v => exact ⟨splitCw_joinCw _, hword w, rfl⟩
  case rset => exact ⟨splitCw_joinCw _, hwf, rfl⟩
  case pfd => exact ⟨splitCw_joinCw _, rfl, (pfdOperand_eq_some_iff _ _ _ _).2 (splitCfg_joinCfg _)⟩
  case plan path =>
    refine ⟨splitCw_joinCw _, rfl, rfl, (planOperand_eq_some_iff _ _ _).2 ?_⟩
    cases path <;> exact splitCfg_joinCfg _
  case fout => exact ⟨splitCw_joinCw _, rfl⟩

/-! ## The rows of the opcode table as match, mask and operand numbers -/

/-- The command word of an opcode with every other sub-field zero: the match of the operation's row. -/
def opcodeWord (k : BitVec 4) : Word := joinCw { opcode := k }

theorem opcodeWord_toNat (k : BitVec 4) : (opcodeWord k).toNat = k.toNat * 2 ^ 28 := by
  revert k
  decide

/-- Below the opcode the match of a row is zero. -/
theorem opcodeWord_block_eq_zero (k : BitVec 4) {o n : Nat} (h : o + n ≤ 28) : (opcodeWord k).toNat / 2 ^ o % 2 ^ n = 0 := by
  obtain ⟨d, hd⟩ := Nat.exists_eq_add_of_le h
  rw [opcodeWord_toNat, hd, show k.toNat * 2 ^ (o + n + d) = k.toNat * 2 ^ d * 2 ^ n * 2 ^ o by ring,
    Nat.mul_div_cancel _ (Nat.two_pow_pos o), Nat.mul_mod_left]

/-- A row's match and mask in numbers: the mask is the opcode and blocks below it, which are zero in the command word. -/
theorem and_eq_opcodeWord_iff {m : Word} (bs : List (Nat × Nat)) (cw : Word) (k : BitVec 4)
    (h : bs.Forall fun b => b.1 + b.2 ≤ 28) (hmask : blocksMask ((28, 4) :: bs) = m)
    (hmatch : ∀ k, opcodeWord k &&& m = opcodeWord k) :
    cw &&& m = opcodeWord k ↔
      cw.toNat / 2 ^ 28 % 2 ^ 4 = k.toNat ∧ bs.Forall fun b => cw.toNat / 2 ^ b.1 % 2 ^ b.2 = 0 := by
  have hbounds : bs.Forall fun b => b.1 + b.2 ≤ 32 := h.imp fun _ hb => le_trans hb (by norm_num)
  have hopcode : (opcodeWord k).toNat / 2 ^ 28 % 2 ^ 4 = k.toNat := by
    rw [opcodeWord_toNat]
    omega
  rw [and_eq_iff_of_blocks cw m _ _ ((List.forall_cons _ _ _).2 ⟨by norm_num, hbounds⟩) hmask (hmatch k), List.forall_cons,
    hopcode]
  simp only [List.forall_iff_forall_mem] at h ⊢
  exact and_congr_right fun _ => forall₂_congr fun b hb => by rw [opcodeWord_block_eq_zero k (h b hb)]

section Rows

variable (cw : Word) (k : BitVec 4)

theorem splitCw_row_opcode : splitCw cw = { opcode := k } ↔ cw = opcodeWord k :=
  ⟨fun h => by rw [opcodeWord, ← h, joinCw_splitCw], fun h => by rw [h, opcodeWord, splitCw_joinCw]⟩

theorem splitCw_row_offset_width (o m : BitVec 5) :
    splitCw cw = { opcode := k, offset := o, widthm1 := m } ↔
      cw &&& 0xFFC00FFF = opcodeWord k ∧ o.toNat = cw.toNat / 2 ^ 17 % 32 ∧ m.toNat = cw.toNat / 2 ^ 12 % 32 := by
  rw [splitCw_eq_iff, and_eq_opcodeWord_iff [(0, 3), (3, 1), (4, 8), (22, 6)] cw k (by decide) (by decide) (by decide)]
  simp only [List.Forall, BitVec.ofNat_eq_ofNat, BitVec.toNat_ofNat, pow_zero, Nat.div_one]
  omega

theorem splitCw_row_fid (fid : BitVec 6) :
    splitCw cw = { opcode := k, fid := fid } ↔ cw &&& 0xF03FFFFF = opcodeWord k ∧ fid.toNat = cw.toNat / 2 ^ 22 % 64 := by
  rw [splitCw_eq_iff,
    and_eq_opcodeWord_iff [(0, 3), (3, 1), (4, 8), (12, 5), (17, 5)] cw k (by decide) (by decide) (by decide)]
  simp only [List.Forall, BitVec.ofNat_eq_ofNat, BitVec.toNat_ofNat, pow_zero, Nat.div_one]
  omega

theorem splitCw_row_fid_psc (fid : BitVec 6) (psc : BitVec 1) :
    splitCw cw = { opcode := k, fid := fid, psc := psc } ↔
      cw &&& 0xF03FFFF7 = opcodeWord k ∧ fid.toNat = cw.toNat / 2 ^ 22 % 64 ∧ psc.toNat = cw.toNat / 2 ^ 3 % 2 := by
  rw [splitCw_eq_iff, and_eq_opcodeWord_iff [(0, 3), (4, 8), (12, 5), (17, 5)] cw k (by decide) (by decide) (by decide)]
  simp only [List.Forall, BitVec.ofNat_eq_ofNat, BitVec.toNat_ofNat, pow_zero, Nat.div_one]
  omega

theorem splitCw_row_ra (ra : BitVec 3) :
    splitCw cw = { opcode := k, ra := ra } ↔ cw &&& 0xFFFFFFF8 = opcodeWord k ∧ ra.toNat = cw.toNat % 8 := by
  rw [splitCw_eq_iff,
    and_eq_opcodeWord_iff [(3, 1), (4, 8), (12, 5), (17, 5), (22, 6)] cw k (by decide) (by decide) (by decide)]
  simp only [List.Forall, BitVec.ofNat_eq_ofNat, BitVec.toNat_ofNat]
  omega

end Rows

theorem pfdOperand_row (opC : Dword) (d h : Bool) (r : BitVec 16) :
    pfdOperand opC = some (d, h, r) ↔
      r.toNat = opC.toNat / 2 ^ 16 % 2 ^ 16 ∧ d.toNat = opC.toNat / 2 ^ 32 % 2 ∧ h.toNat = opC.toNat / 2 ^ 33 % 2 ∧
        opC.toNat % 2 ^ 16 = 0 ∧ opC.toNat / 2 ^ 34 = 0 := by
  rw [pfdOperand_eq_some_iff, splitCfg_eq_iff]
  simp only [pfdCfgFields, bitOfBool_toNat, BitVec.ofNat_eq_ofNat, BitVec.toNat_ofNat]
  omega

theorem planOperand_auto_row (opC : Dword) (m : BitVec 16) : planOperand opC = some (m, .auto) ↔ m.toNat = opC.toNat := by
  rw [planOperand_eq_some_iff, splitCfg_eq_iff]
  simp only [planCfgFields, BitVec.ofNat_eq_ofNat, BitVec.toNat_ofNat]
  omega

theorem planOperand_manual_row (opC : Dword) (m : BitVec 16) (d h : Bool) (r : BitVec 16) :
    planOperand opC = some (m, .manual d h r) ↔
      m.toNat = opC.toNat % 2 ^ 16 ∧ r.toNat = opC.toNat / 2 ^ 16 % 2 ^ 16 ∧ d.toNat = opC.toNat / 2 ^ 32 % 2 ∧
        h.toNat = opC.toNat / 2 ^ 33 % 2 ∧ opC.toNat / 2 ^ 34 = 1 := by
  rw [planOperand_eq_some_iff, splitCfg_eq_iff]
  simp only [planCfgFields, bitOfBool_toNat, BitVec.ofNat_eq_ofNat, BitVec.toNat_ofNat]
  omega

theorem pscAllowed_iff (f : RegField) (psc : Prescaler) : pscAllowed f psc = true ↔ (psc = .high → f = .int) := by
  cases f <;> cases psc <;> decide

theorem pscBit_toNat_eq_mod_two (psc : Prescaler) (n : Nat) : (pscBit psc).toNat = n % 2 ↔ (psc = .high ↔ n % 2 = 1) := by
  have hbit := Nat.mod_two_eq_zero_or_one n
  cases psc <;> simp [pscBit] <;> omega

/-! ## The register-word decoder (R50 to R56) -/

/-- The bits of no field as blocks, each by its offset and width (R19). -/
def unassignedBlocks : Reg → List (Nat × Nat)
  | .r0 => [(31, 1)]
  | .r1 => [(29, 3)]
  | .r2 => [(31, 1)]
  | .r3 => [(17, 1), (19, 2), (24, 8)]
  | .r4 => [(24, 8)]
  | .r5 => [(3, 19), (24, 8)]

theorem unassignedBlocks_le (a : Reg) : (unassignedBlocks a).Forall fun b => b.1 + b.2 ≤ 32 := by cases a <;> decide

theorem blocksMask_unassignedBlocks (a : Reg) : blocksMask (unassignedBlocks a) = a.unassigned := by cases a <;> decide

/-- The word is of register `a`'s format: it ends in the tag, and the bits of no field are zero. -/
def FitsFormat (a : Reg) (w : Word) : Prop :=
  w.toNat % 8 = a.number ∧ (unassignedBlocks a).Forall fun b => w.toNat / 2 ^ b.1 % 2 ^ b.2 = 0

theorem fitsFormat_iff_unassigned (a : Reg) (w : Word) :
    FitsFormat a w ↔ w.extractLsb' 0 3 = BitVec.ofNat 3 a.number ∧ w &&& a.unassigned = 0 := by
  rw [FitsFormat, and_eq_iff_of_blocks w _ 0 _ (unassignedBlocks_le a) (blocksMask_unassignedBlocks a) BitVec.zero_and,
    extractLsb'_eq_iff, number_toNat, pow_zero, Nat.div_one]
  simp only [BitVec.ofNat_eq_ofNat, BitVec.toNat_ofNat, Nat.zero_mod, Nat.zero_div]
  rfl

/-- The match and the mask of a format's row: the tag, and the bits of no field with the three tag bits. -/
theorem fitsFormat_iff_mask (a : Reg) (w : Word) : FitsFormat a w ↔ w &&& (a.unassigned ||| 7) = a.tag := by
  have hbounds : ((0, 3) :: unassignedBlocks a).Forall fun b => b.1 + b.2 ≤ 32 := by cases a <;> decide
  have hmask : blocksMask ((0, 3) :: unassignedBlocks a) = a.unassigned ||| 7 := by cases a <;> decide
  have hmatch : a.tag &&& (a.unassigned ||| 7) = a.tag := by cases a <;> decide
  rw [and_eq_iff_of_blocks w _ _ _ hbounds hmask hmatch, FitsFormat]
  cases a <;> simp [unassignedBlocks, Reg.tag, Reg.number]

/-- The fields of register `a`'s format in a word. -/
def formatFields (w : Word) : Reg → Instr
  | .r0 => .w0 (w.extractLsb' 3 12) (w.extractLsb' 15 16)
  | .r1 => .w1 (w.extractLsb' 3 12) (w.extractLsb' 15 12) (w.extractLsb' 27 1) (w.extractLsb' 28 1)
  | .r2 =>
    .w2 (w.extractLsb' 3 1) (w.extractLsb' 4 1) (w.extractLsb' 5 1) (w.extractLsb' 6 1) (w.extractLsb' 7 1)
      (w.extractLsb' 8 1) (w.extractLsb' 9 4) (w.extractLsb' 13 1) (w.extractLsb' 14 10) (w.extractLsb' 24 1)
      (w.extractLsb' 25 1) (w.extractLsb' 26 3) (w.extractLsb' 29 2)
  | .r3 =>
    .w3 (w.extractLsb' 3 12) (w.extractLsb' 15 2) (w.extractLsb' 18 1) (w.extractLsb' 21 1) (w.extractLsb' 22 1)
      (w.extractLsb' 23 1)
  | .r4 =>
    .w4 (w.extractLsb' 3 2) (w.extractLsb' 5 1) (w.extractLsb' 6 2) (w.extractLsb' 8 1) (w.extractLsb' 9 1)
      (w.extractLsb' 10 1) (w.extractLsb' 11 1) (w.extractLsb' 12 8) (w.extractLsb' 20 3) (w.extractLsb' 23 1)
  | .r5 => .w5 (w.extractLsb' 22 2)

theorem decodeWireWord_eq_some_iff_fitsFormat (w : Word) (i : Instr) :
    decodeWireWord w = some i ↔ ∃ a, FitsFormat a w ∧ formatFields w a = i := by
  simp only [fitsFormat_iff_unassigned, ← ofBits_eq_some_iff, decodeWireWord]
  cases Reg.ofBits (w.extractLsb' 0 3) with
  | none => simp
  | some a => cases a <;> simp [formatFields]

/-- The fields of a word that fits its format, put together again: adjacent pieces of the word join up to the whole of it. -/
theorem encode_formatFields {a : Reg} {w : Word} (h : FitsFormat a w) : encode (formatFields w a) = .regWord w := by
  obtain ⟨htag, -⟩ := (fitsFormat_iff_unassigned a w).1 h
  obtain ⟨-, hzero⟩ := h
  have hblock (o n : Nat) (hmem : (o, n) ∈ unassignedBlocks a) : 0#n = w.extractLsb' o n := by
    have hnum := List.forall_iff_forall_mem.1 hzero _ hmem
    exact ((extractLsb'_eq_iff _ _).2 (hnum.trans BitVec.toNat_zero.symm)).symm
  cases a <;> refine congrArg Input.regWord (Eq.trans ?_ BitVec.extractLsb'_eq_self)
  case r0 =>
    simp only [wordW0, hblock 31 1 (by decide), ← show _ = 0b000#3 from htag,
      BitVec.extractLsb'_append_extractLsb'_eq_extractLsb']
  case r1 =>
    simp only [wordW1, hblock 29 3 (by decide), ← show _ = 0b001#3 from htag,
      BitVec.extractLsb'_append_extractLsb'_eq_extractLsb']
  case r2 =>
    simp only [wordW2, hblock 31 1 (by decide), ← show _ = 0b010#3 from htag,
      BitVec.extractLsb'_append_extractLsb'_eq_extractLsb']
  case r3 =>
    simp only [wordW3, hblock 17 1 (by decide), hblock 19 2 (by decide), hblock 24 8 (by decide),
      ← show _ = 0b011#3 from htag, BitVec.extractLsb'_append_extractLsb'_eq_extractLsb']
  case r4 =>
    simp only [wordW4, hblock 24 8 (by decide), ← show _ = 0b100#3 from htag,
      BitVec.extractLsb'_append_extractLsb'_eq_extractLsb']
  case r5 =>
    simp only [wordW5, hblock 3 19 (by decide), hblock 24 8 (by decide), ← show _ = 0b101#3 from htag,
      BitVec.extractLsb'_append_extractLsb'_eq_extractLsb']

/-- Settles O8: the number of each format, divided by a field's offset, leaves the operand as its remainder. -/
theorem namedFieldsStandInTheirFormats : Obligations.NamedFieldsStandInTheirFormats := by
  intro x
  refine ⟨fun _ _ h => ?_, fun _ _ _ _ h => ?_, fun _ _ _ _ _ _ _ _ _ _ _ _ _ h => ?_, fun _ _ _ _ _ _ h => ?_,
    fun _ _ _ _ _ _ _ _ _ _ h => ?_, fun _ h => ?_⟩ <;>
    simp only [fieldValue, RegField.desc, Words.get, h, wordW0_toNat, wordW1_toNat, wordW2_toNat, wordW3_toNat, wordW4_toNat,
      wordW5_toNat]
  case refine_6 => omega
  all_goals and_intros <;> omega

/-- The encoder's words fit their formats, and each field comes out as the operand that went in. -/
theorem fitsFormat_of_encode {i : Instr} {w : Word} (h : encode i = .regWord w) :
    ∃ a, FitsFormat a w ∧ formatFields w a = i := by
  obtain ⟨h0, h1, h2, h3, h4, h5⟩ := namedFieldsStandInTheirFormats ⟨w, w, w, w, w, w⟩
  cases i <;> cases h
  case' w0 => refine ⟨.r0, ?_, (Instr.w0.injEq ..).mpr (by simp only [extractLsb'_eq_iff]; exact h0 _ _ rfl)⟩
  case' w1 => refine ⟨.r1, ?_, (Instr.w1.injEq ..).mpr (by simp only [extractLsb'_eq_iff]; exact h1 _ _ _ _ rfl)⟩
  case' w2 =>
    refine ⟨.r2, ?_, (Instr.w2.injEq ..).mpr (by simp only [extractLsb'_eq_iff]; exact h2 _ _ _ _ _ _ _ _ _ _ _ _ _ rfl)⟩
  case' w3 => refine ⟨.r3, ?_, (Instr.w3.injEq ..).mpr (by simp only [extractLsb'_eq_iff]; exact h3 _ _ _ _ _ _ rfl)⟩
  case' w4 => refine ⟨.r4, ?_, (Instr.w4.injEq ..).mpr (by simp only [extractLsb'_eq_iff]; exact h4 _ _ _ _ _ _ _ _ _ _ rfl)⟩
  case' w5 => refine ⟨.r5, ?_, (Instr.w5.injEq ..).mpr (by simp only [extractLsb'_eq_iff]; exact h5 _ rfl)⟩
  all_goals
    simp only [FitsFormat, wordW0_toNat, wordW1_toNat, wordW2_toNat, wordW3_toNat, wordW4_toNat, wordW5_toNat,
      unassignedBlocks, List.Forall, Reg.number]
    omega

theorem decodeWireWord_eq_some_iff (w : Word) (i : Instr) : decodeWireWord w = some i ↔ encode i = .regWord w := by
  rw [decodeWireWord_eq_some_iff_fitsFormat]
  constructor
  · rintro ⟨a, hfits, rfl⟩
    exact encode_formatFields hfits
  · exact fitsFormat_of_encode

theorem decodeWireWord_isSome_iff (w : Word) :
    (decodeWireWord w).isSome = true ↔ ∃ a : Reg, w &&& (a.unassigned ||| 7) = a.tag := by
  simp only [Option.isSome_iff_exists, decodeWireWord_eq_some_iff_fitsFormat, ← fitsFormat_iff_mask]
  exact ⟨fun ⟨_, a, hfits, _⟩ => ⟨a, hfits⟩, fun ⟨a, hfits⟩ => ⟨_, a, hfits, rfl⟩⟩

/-! ## The obligations -/

/-- Settles O10: each decoder's equivalence, used on the encoder's own input. -/
theorem decodeOfEncodeIsIdentity : Obligations.DecodeOfEncodeIsIdentity := by
  intro i hwf
  rcases h : encode i with c | w | _
  · exact decodeCommand_of_asksFor (asksFor_of_encode hwf h)
  · exact (decodeWireWord_eq_some_iff w i).2 h
  · cases i <;> cases h

/-- Settles O11: the decoder's equivalence, and the match and mask of the six formats. -/
theorem wireDecoderFollowsFormats : Obligations.WireDecoderFollowsFormats := by
  intro w
  refine ⟨decodeWireWord_eq_some_iff w, (decodeWireWord_isSome_iff w).trans ⟨?_, ?_⟩⟩
  · rintro ⟨a, ha⟩
    cases a <;> tauto
  · rintro (h | h | h | h | h | h)
    exacts [⟨.r0, h⟩, ⟨.r1, h⟩, ⟨.r2, h⟩, ⟨.r3, h⟩, ⟨.r4, h⟩, ⟨.r5, h⟩]

/-- Settles O12: what a command asks for, each row's sub-fields and ports in numbers. -/
theorem commandDecoderFollowsOpcodeTable : Obligations.CommandDecoderFollowsOpcodeTable := by
  intro c
  simp only [decodeCommand_eq_some_iff]
  refine ⟨?rsdef, fun o m w => ?fget, fun o m w v => ?fset, fun f => ?rget, fun f psc v => ?rset, fun a => ?rword, ?rser,
    fun ref d h r => ?pfd, fun ref target m => ?auto, fun ref target m d h r => ?manual, fun ref => ?fout, fun w => ?wwrite,
    ?prog, fun i => isOperation_of_asksFor⟩
  case rsdef | rser | prog => exact splitCw_row_opcode _ _
  case fget | fset =>
    rw [asksFor, splitCw_row_offset_width, wordOperand_eq_some_iff, and_assoc, and_assoc]
    rfl
  case rget => exact splitCw_row_fid _ _ _
  case rset =>
    rw [asksFor, splitCw_row_fid_psc, pscBit_toNat_eq_mod_two, pscAllowed_iff, and_assoc, and_assoc]
    rfl
  case rword =>
    rw [asksFor, splitCw_row_ra, number_toNat]
    rfl
  case pfd =>
    rw [asksFor, splitCw_row_opcode, pfdOperand_row]
    rfl
  case auto =>
    rw [asksFor, splitCw_row_opcode, planOperand_auto_row]
    rfl
  case manual =>
    rw [asksFor, splitCw_row_opcode, planOperand_manual_row]
    rfl
  case fout =>
    rw [asksFor, splitCw_row_opcode]
    rfl
  case wwrite =>
    rw [asksFor, splitCw_row_opcode, wordOperand_eq_some_iff]
    rfl

/-- Settles O7: the table evaluated, and `ofFid_fid`. -/
theorem fieldTableProperties : Obligations.FieldTableProperties :=
  ⟨rfl, ofFid_fid, rfl, by decide, by decide, by decide, by decide, rfl⟩

/-- Settles O13: the decoder evaluated on each word. -/
theorem specWordsDecode : Obligations.SpecWordsDecode :=
  ⟨by decide, by decide, by decide, by decide, by decide, by decide⟩

end Sys2Proof.Machine
end

section
/-! PROOFS of 20_memory.md, 70_reset_and_hazards.md and the invariant. What a step does with the input it takes, what every
step keeps, and how the chip's side is reached. -/

namespace Sys2Proof.Machine

/-! ## The input a step takes -/

section TakenInput

variable {inp : Input} {rest : List Input} {s : State} (h : s.inbox = inp :: rest)
include h

theorem step_of_decode_some {i : Instr} (hd : decode inp = some i) : step s = exec i { s with inbox := rest } := by
  simp only [step, takeInput, h, hd]

theorem step_of_decode_none (hd : decode inp = none) : step s = withoutInstr inp { s with inbox := rest } := by
  simp only [step, takeInput, h, hd]

end TakenInput

/-- A register word by itself is none of the twelve operations and ends in IllegalCommand (R76; log 2). -/
theorem exec_of_not_isOperation {i : Instr} (h : isOperation i = false) (s : State) :
    exec i s = .next (raise .illegalCommand s) := by
  cases i with
  | w0 | w1 | w2 | w3 | w4 | w5 => rfl
  | _ => cases h

/-- What the register-word decoder answers is no operation. -/
theorem not_isOperation_of_decodeWireWord {w : Word} {i : Instr} (h : decodeWireWord w = some i) : isOperation i = false := by
  have henc := (decodeWireWord_eq_some_iff w i).1 h
  cases i with
  | w0 | w1 | w2 | w3 | w4 | w5 => rfl
  | _ => cases henc

/-- A word by itself is IllegalCommand, of a format or of none (log 2, log 17). -/
theorem step_regWord {w : Word} {rest : List Input} {s : State} (h : s.inbox = .regWord w :: rest) :
    step s = .next (raise .illegalCommand { s with inbox := rest }) := by
  rcases hd : decodeWireWord w with _ | i
  · exact step_of_decode_none h hd
  · rw [step_of_decode_some h hd, exec_of_not_isOperation (not_isOperation_of_decodeWireWord hd)]

/-! ## What every step keeps -/

theorem inv_iff (s : State) :
    s.inv = true ↔ s.x.wf = true ∧ (s.wout.length = 0 ∨ s.wout.length = 6) ∧ s.params.Valid := by
  simp only [State.inv, Bool.and_eq_true, Bool.or_eq_true, beq_iff_eq, decide_eq_true_eq, and_assoc]

/-- `exec_frame` and `withoutInstr_frame` for a step, whatever it takes. -/
theorem step_frame {s t : State} (hs : step s = .next t) :
    t.params = s.params ∧ (t.wout = [] ∨ t.wout = wireImage s.x) ∧ (∃ l, t.hist = s.hist ++ l) ∧
      (s.x.wf = true → t.x.wf = true) := by
  obtain ⟨inp, rest, -, ⟨i, -, hi⟩ | ⟨-, hnone⟩⟩ := step_cases hs
  · obtain ⟨hparams, -, hwout, hhist, hwf⟩ := exec_frame hi
    exact ⟨hparams, hwout, hhist, hwf⟩
  · obtain ⟨u, hu, hparams, -, hwout, hchip, hwf⟩ := withoutInstr_frame inp { s with inbox := rest }
    obtain rfl : u = t := Host.Outcome.next.inj (hu.symm.trans hnone)
    exact ⟨hparams, .inl hwout, ⟨[], by rw [hchip.hist, List.append_nil]⟩, hwf⟩

theorem reaches_keeps_wf {s t : State} (h : Reaches s t) (hwf : s.x.wf = true) : t.x.wf = true := by
  induction h with
  | refl => exact hwf
  | tail _ hs ih =>
    obtain ⟨-, -, -, hkeeps⟩ := step_frame hs
    exact hkeeps ih

/-! ## The chip's side -/

/-- WWRITE that leaves the history as it was sent nothing (R142, R148). -/
theorem writeWord_sameChip_of_hist_eq {w : Word} {s : State} (h : (writeWord w s).hist = s.hist) :
    SameChip s (writeWord w s) := by
  have hkeeps {a s1} (htake : takeAnswer s = (a, s1)) : s1.hist = s.hist := by
    rw [← takeAnswer_hist s, htake]
  obtain ⟨-, hw⟩ | ⟨a, s1, -, htake, hw⟩ | ⟨a, e, s1, -, htake, hw⟩ := writeWord_cases w s
  · rw [hw]
    exact raise_sameChip .badTag s
  · simp [hw, hkeeps htake] at h
  · simp [hw, hkeeps htake] at h

/-- The loop of PROG over at least one word leaves an event (R148). -/
theorem sendWords_hist_ne {ws : List Word} (hws : ws ≠ []) (n : Nat) (s : State) : (sendWords ws n s).hist ≠ s.hist := by
  obtain ⟨-, hhist⟩ | ⟨i, hi, e, -, hhist⟩ := sendWords_hist_cases ws n s
  · simpa [hhist] using hws
  · simp [hhist, hi]

theorem exec_sameChip_of_hist_eq {i : Instr} {s t : State} (he : exec i s = .next t) (h : t.hist = s.hist) :
    SameChip s t := by
  cases i
  case wwrite w =>
    cases he
    exact writeWord_sameChip_of_hist_eq h
  case prog =>
    cases he
    exact absurd h (sendWords_hist_ne (List.cons_ne_nil _ _) 0 s)
  all_goals exact exec_sameChip he nofun nofun

/-- A step that takes neither WWRITE nor PROG does not reach the chip (R30, R78). -/
theorem step_sameChip {s t : State} (hs : step s = .next t) {inp : Input} {rest : List Input} (hin : s.inbox = inp :: rest)
    (hprog : decode inp ≠ some .prog) (hwwrite : ∀ w, decode inp ≠ some (.wwrite w)) : SameChip s t := by
  rcases hd : decode inp with _ | i
  · rw [step_of_decode_none hin hd] at hs
    obtain ⟨u, hu, -, -, -, ⟨hhist, hdev, hresyncs, hline⟩, -⟩ := withoutInstr_frame inp { s with inbox := rest }
    obtain rfl : u = t := Host.Outcome.next.inj (hu.symm.trans hs)
    exact ⟨hhist, hdev, hresyncs, hline⟩
  · rw [step_of_decode_some hin hd] at hs
    rw [hd] at hprog hwwrite
    obtain ⟨hhist, hdev, hresyncs, hline⟩ :=
      exec_sameChip hs (fun w hi => hwwrite w (congrArg some hi)) fun hi => hprog (congrArg some hi)
    exact ⟨hhist, hdev, hresyncs, hline⟩

/-! ## The obligations -/

/-- Settles O54: what `step_frame` says of each part of the invariant. -/
theorem stepKeepsInvariant : Obligations.StepKeepsInvariant := by
  intro s t hinv hs
  obtain ⟨hwf, -, hvalid⟩ := (inv_iff s).1 hinv
  obtain ⟨hparams, hwout, -, hkeeps⟩ := step_frame hs
  refine (inv_iff t).2 ⟨hkeeps hwf, ?_, hparams ▸ hvalid⟩
  obtain hempty | himage := hwout
  · exact .inl (by rw [hempty, List.length_nil])
  · exact .inr (by rw [himage]; rfl)

/-- Settles O55: the default Register Set is legal, and the default parameters meet their side conditions. -/
theorem resetMeetsInvariant : Obligations.ResetMeetsInvariant := by
  have hvalid : State.reset.params.Valid := by decide
  exact (inv_iff _).2 ⟨default_wf, .inl rfl, hvalid⟩

/-- Settles O57: by induction on the steps, from the default Register Set. -/
theorem reachableRegisterSetsAreLegal : Obligations.ReachableRegisterSetsAreLegal :=
  fun _ _ _ _ _ hreach => reaches_keeps_wf hreach default_wf

/-- Settles O40: every step appends, and by `step_sameChip` only one that takes WWRITE or PROG appends anything. -/
theorem historyIsAppendOnly : Obligations.HistoryIsAppendOnly := by
  intro s t hs
  obtain ⟨-, -, hhist, -⟩ := step_frame hs
  refine ⟨hhist, fun hne => ?_⟩
  obtain ⟨inp, rest, hin, -⟩ := step_cases hs
  refine ⟨inp, rest, hin, ?_⟩
  by_contra hneither
  obtain ⟨hprog, hwwrite⟩ := not_or.1 hneither
  exact hne (step_sameChip hs hin hprog (not_exists.1 hwwrite)).hist

/-- Settles O41: an operation that leaves no event sends nothing, and only two operations leave one. -/
theorem chipReachedOnlyThroughDeviceWriter : Obligations.ChipReachedOnlyThroughDeviceWriter := by
  intro s t hs
  refine ⟨fun heq => ?_, fun inp rest hin hprog hwwrite => step_sameChip hs hin hprog hwwrite⟩
  obtain ⟨inp, rest, hin, ⟨i, -, hi⟩ | ⟨hnone, -⟩⟩ := step_cases hs
  · obtain ⟨hhist, hdev, hresyncs, hline⟩ := exec_sameChip_of_hist_eq hi heq
    exact ⟨hhist, hdev, hresyncs, hline⟩
  · exact step_sameChip hs hin (by simp [hnone]) (by simp [hnone])

/-- Settles O39: each register word ends in IllegalCommand. -/
theorem registerWordsAreNoOperations : Obligations.RegisterWordsAreNoOperations := by
  intro s
  have hends (i : Instr) (hi : isOperation i = false) : EndsIn i s .illegalCommand :=
    endsIn_of_exec (exec_of_not_isOperation hi s)
  refine ⟨?_, ?_, ?_, ?_, ?_, ?_⟩ <;> intros <;> exact hends _ rfl

/-- Settles O47: a command that decodes to nothing is taken and raises IllegalCommand. -/
theorem unmatchedCommandIsIllegal : Obligations.UnmatchedCommandIsIllegal :=
  fun _ _ _ hin hd => ⟨_, step_of_decode_none hin hd, rfl, rfl, rfl, ⟨rfl, rfl, rfl, rfl⟩, rfl, rfl, rfl⟩

/-- Settles O49: `step_of_decode_some`. -/
theorem stepRunsDecodedInstruction : Obligations.StepRunsDecodedInstruction :=
  fun _ _ _ _ hin hd => step_of_decode_some hin hd

/-- Settles O50: without an input there is none to take. -/
theorem stepStopsWithoutInput : Obligations.StepStopsWithoutInput := by
  intro s hin
  simp only [step, takeInput, hin]

/-- Settles O51: `step_regWord`. -/
theorem wordByItselfIsIllegal : Obligations.WordByItselfIsIllegal :=
  fun _ _ _ hin => ⟨_, step_regWord hin, rfl, rfl, ⟨rfl, rfl, rfl, rfl⟩, rfl, rfl, rfl⟩

/-- Settles O52: the reset input decodes to no instruction and runs `hostReset`. -/
theorem resetInputRestoresDefault : Obligations.ResetInputRestoresDefault :=
  fun _ _ hin => ⟨_, step_of_decode_none hin rfl, rfl, rfl, rfl, ⟨rfl, rfl, rfl, rfl⟩, rfl⟩

end Sys2Proof.Machine
end

section
/-! PROOFS of 41_regset.md and the word output. Which operations write the Register Set, the two dividers that stay nonzero, the
configuration options, and the word output. -/

namespace Sys2Proof.Machine

/-! ## Which operations write registers and drive words -/

/-- No operation but RSDEF, RSET and PLAN writes the Register Set (R12). -/
theorem exec_keeps_registers {i : Instr} {s t : State} (he : exec i s = .next t) (hrsdef : i ≠ .rsdef)
    (hrset : ∀ f p v, i ≠ .rset f p v) (hplan : ∀ ref target m path, i ≠ .plan ref target m path) : t.x = s.x := by
  cases i
  case rsdef => exact absurd rfl hrsdef
  case rset f p v => exact absurd rfl (hrset f p v)
  case plan ref target m path => exact absurd rfl (hplan ref target m path)
  case wwrite => exact wwrite_keeps_registers he
  case prog => exact prog_keeps_registers he
  case fget | fset | pfd | fout =>
    cases he
    exact conclude_x _ s
  all_goals
    cases he
    rfl

/-- No instruction but RSER and PROG drives words (R22; log 12). -/
theorem exec_wout_eq_nil {i : Instr} {s t : State} (he : exec i s = .next t) (hrser : i ≠ .rser) (hprog : i ≠ .prog) :
    t.wout = [] := by
  cases i
  case rser => exact absurd rfl hrser
  case prog => exact absurd rfl hprog
  case plan => obtain ⟨st, -, rfl⟩ | ⟨v, -, rfl⟩ := plan_cases he <;> rfl
  case wwrite w =>
    cases he
    obtain ⟨-, -, -, hwout, -⟩ := writeWord_frame w s
    exact hwout
  case fget | fset | pfd | fout =>
    cases he
    exact conclude_wout _ s
  all_goals
    cases he
    rfl

/-! ## One field after RSETs -/

theorem fieldValue_rsetWords_same (x : Words) (f : RegField) (v : Nat) (psc : Prescaler) :
    fieldValue (rsetWords f v psc x) f = prepare f v psc % 2 ^ f.desc.width := by
  rw [← getField_eq_fieldValue, getField_rsetWords_same]

theorem fieldValue_rsetWords_other (x : Words) {f g : RegField} (v : Nat) (psc : Prescaler) (h : f ≠ g) :
    fieldValue (rsetWords f v psc x) g = fieldValue x g := by
  rw [← getField_eq_fieldValue, ← getField_eq_fieldValue, getField_rsetWords_other x v psc h]

/-! ## The dividers that stay nonzero (R107) -/

section Dividers

variable {g : RegField} (hg : g = .rCounter ∨ g = .bandSelectClockDiv)
include hg

/-- An RSET of one of the two dividers writes at least 1, and any other RSET leaves them (R95, R96). -/
theorem rsetWords_keeps_nonzero (f : RegField) (v : Nat) (psc : Prescaler) {x : Words} (h : fieldValue x g ≠ 0) :
    fieldValue (rsetWords f v psc x) g ≠ 0 := by
  by_cases hf : f = g
  · subst hf
    rw [fieldValue_rsetWords_same]
    obtain rfl | rfl := hg <;> rw [Nat.mod_eq_of_lt (prepare_lt_two_pow v psc (by decide))] <;>
      simp only [prepare, clamp, rMin, rMax, bscdMin, bscdMax] <;> omega
  · rwa [fieldValue_rsetWords_other x v psc hf]

theorem applyWrites_keeps_nonzero (psc : Prescaler) (ws : List (RegField × Nat)) {x : Words} (h : fieldValue x g ≠ 0) :
    fieldValue (applyWrites psc ws x) g ≠ 0 :=
  List.foldlRecOn (motive := fun y : Words => fieldValue y g ≠ 0) ws _ h
    fun _ hy w _ => rsetWords_keeps_nonzero hg w.1 w.2 psc hy

theorem exec_keeps_nonzero {i : Instr} {s t : State} (he : exec i s = .next t) (hi : i ≠ .rsdef) (h : fieldValue s.x g ≠ 0) :
    fieldValue t.x g ≠ 0 := by
  cases i
  case rset f p v =>
    cases he
    exact rsetWords_keeps_nonzero hg f v.toNat p h
  case plan =>
    obtain ⟨st, -, rfl⟩ | ⟨v, -, rfl⟩ := plan_cases he
    · exact h
    · exact applyWrites_keeps_nonzero hg _ _ h
  all_goals rwa [exec_keeps_registers he hi nofun nofun]

end Dividers

/-! ## The configuration options (R104) -/

/-- One RSET runs to Ok, leaves the prepared value masked to the field, and touches nothing of the chip. -/
theorem execAll_rset (f : RegField) (v : Dword) (s : State) :
    ∃ t, execAll [.rset f .low v] s = .next t ∧ t.status = .ok ∧ SameChip s t ∧
      fieldValue t.x f = prepare f v.toNat .low % 2 ^ f.desc.width :=
  ⟨_, rfl, rfl, ⟨rfl, rfl, rfl, rfl⟩, fieldValue_rsetWords_same _ _ _ _⟩

/-- Where the clamp ends below the range of the field, the mask changes nothing (R94 to R96). -/
theorem execAll_rset_clamped {f : RegField} (h : f ∈ [RegField.rfDividerSelect, .rCounter, .bandSelectClockDiv]) (v : Dword)
    (s : State) :
    ∃ t, execAll [.rset f .low v] s = .next t ∧ t.status = .ok ∧ SameChip s t ∧
      fieldValue t.x f = prepare f v.toNat .low := by
  rw [← Nat.mod_eq_of_lt (prepare_lt_two_pow v.toNat .low h)]
  exact execAll_rset f v s

theorem execAll_rset_rset {f g : RegField} (h : g ≠ f) (u v : Dword) (s : State) :
    ∃ t, execAll [.rset f .low u, .rset g .low v] s = .next t ∧ t.status = .ok ∧ SameChip s t ∧
      fieldValue t.x f = prepare f u.toNat .low % 2 ^ f.desc.width ∧
      fieldValue t.x g = prepare g v.toNat .low % 2 ^ g.desc.width :=
  ⟨_, rfl, rfl, ⟨rfl, rfl, rfl, rfl⟩, (fieldValue_rsetWords_other _ _ _ h).trans (fieldValue_rsetWords_same _ _ _ _),
    fieldValue_rsetWords_same _ _ _ _⟩

/-! ## The obligations -/

/-- Settles O21: the wire image of the register words, and `exec_wout_eq_nil`. -/
theorem wordOutputOfEachOperation : Obligations.WordOutputOfEachOperation := by
  intro i s t he
  refine ⟨?_, exec_wout_eq_nil he⟩
  rintro (rfl | rfl) <;> cases he <;> exact wireImage_eq_map_wireOrder s.x

/-- Settles O22: what one or two RSETs leave in their fields; the two clamps end below the range of their fields. -/
theorem configurationOptionsSetTheirFields : Obligations.ConfigurationOptionsSetTheirFields := by
  refine ⟨fun op s => ?_, fun c e => ⟨BitVec.toNat_setWidth_of_le (by decide), ?_, BitVec.toNat_setWidth_of_le (by decide)⟩,
    fun c => ⟨?_, ?_, ?_⟩⟩
  · cases op with
    | rCounter v | bandSelectClockDiv v => exact execAll_rset_clamped (by decide) v s
    | rfOutput e p | auxOutput e p => exact execAll_rset_rset (by decide) e p s
    | doubleBuffer v | cpCurrent v | pdPolarity v | modulus v | refDoubler v | refDiv2 v | lockDetectPin v =>
      exact execAll_rset _ v s
  · cases e <;> rfl
  all_goals exact BitVec.toNat_setWidth_of_le (by decide)

/-- Settles O48: `exec_keeps_registers`. -/
theorem onlyThreeOperationsWriteRegisters : Obligations.OnlyThreeOperationsWriteRegisters := by
  intro i s t he hne
  by_contra hnone
  push Not at hnone
  obtain ⟨hrsdef, hrset, hplan⟩ := hnone
  exact hne (exec_keeps_registers he hrsdef hrset hplan)

/-- Settles O56: `exec_keeps_nonzero` for the two dividers. -/
theorem writtenDividersStayNonzero : Obligations.WrittenDividersStayNonzero :=
  fun _ _ _ he hi => ⟨exec_keeps_nonzero (.inl rfl) he hi, exec_keeps_nonzero (.inr rfl) he hi⟩

end Sys2Proof.Machine
end

section
/-! PROOFS of 42_planner.md, continued. The bounds of a phase-detector frequency, what a PLAN and a FOUT that end Ok have
computed, the reference path of auto mode, and how far FOUT stays below PLAN's target. -/

namespace Sys2Proof.Machine

/-! ## What an operation that ends Ok has computed -/

/-- An operation that concludes with a number and ends Ok had the number to conclude with. -/
theorem exists_ok_of_conclude {e : Except Status Nat} {s : State} (herr : ∀ st, e = .error st → st ≠ .ok)
    (h : (conclude (e.map (BitVec.ofNat 64)) s).status = .ok) :
    ∃ v, e = .ok v ∧ (conclude (e.map (BitVec.ofNat 64)) s).result = BitVec.ofNat 64 v := by
  cases e with
  | error st => exact absurd h (herr st rfl)
  | ok v => exact ⟨v, rfl, rfl⟩

theorem pfd_ok {ref : Dword} {d h : Bool} {r : BitVec 16} {s t : State} (he : exec (.pfd ref d h r) s = .next t)
    (hok : t.status = .ok) :
    ∃ f, pfdChecked s.params ref.toNat d.toNat r.toNat h.toNat = .ok f ∧ t.result = BitVec.ofNat 64 f := by
  cases he
  exact exists_ok_of_conclude (fun _ => pfdChecked_error_ne_ok) hok

theorem foutCompute_error_ne_ok {p : Params} {x : Words} {ref : Nat} {st : Status} (he : foutCompute p x ref = .error st) :
    st ≠ .ok := by
  rcases hpfd : pfdChecked p ref (fieldValue x .refDoubler) (fieldValue x .rCounter) (fieldValue x .rdiv2) with st' | f
  · rw [foutCompute_of_pfd_error hpfd] at he
    cases he
    exact pfdChecked_error_ne_ok hpfd
  · rw [foutCompute_of_pfd_ok hpfd] at he
    split_ifs at he <;> cases he <;> decide

/-- A FOUT that answers has passed the phase-detector checks, and answers the formula's value (R127). -/
theorem foutCompute_ok {p : Params} {x : Words} {ref v : Nat} (h : foutCompute p x ref = .ok v) :
    ∃ f, pfdChecked p ref (fieldValue x .refDoubler) (fieldValue x .rCounter) (fieldValue x .rdiv2) = .ok f ∧
      v = foutValue x f := by
  rcases hpfd : pfdChecked p ref (fieldValue x .refDoubler) (fieldValue x .rCounter) (fieldValue x .rdiv2) with st | f
  · rw [foutCompute_of_pfd_error hpfd] at h
    cases h
  · rw [foutCompute_of_pfd_ok hpfd] at h
    split_ifs at h
    cases h
    exact ⟨f, rfl, rfl⟩

theorem fout_ok {ref : Dword} {s t : State} (he : exec (.fout ref) s = .next t) (hok : t.status = .ok) :
    ∃ v, foutCompute s.params s.x ref.toNat = .ok v ∧ t.result = BitVec.ofNat 64 v := by
  cases he
  exact exists_ok_of_conclude (fun _ => foutCompute_error_ne_ok) hok

/-! ## The bounds of a phase-detector frequency (R112) -/

/-- The smallest reference over the largest divisor, 10 MHz / 1023 / 2, is above 4887 Hz. -/
theorem le_of_pfdChecked_ok {p : Params} {ref d r h f : Nat} (hok : pfdChecked p ref d r h = .ok f) (hr : r ≤ 1023)
    (hh : h ≤ 1) : 4887 ≤ f := by
  obtain ⟨href, -, hr0, -, rfl⟩ := pfdChecked_ok hok
  simp only [refMinHz] at href
  have hdiv : r * (1 + h) ≤ 1023 * 2 := Nat.mul_le_mul hr (by omega)
  have hmul : ref ≤ ref * (1 + d) := Nat.le_mul_of_pos_right ref (by omega)
  have hpos : 0 < r * (1 + h) := Nat.mul_pos (by omega) (by omega)
  rw [pfdRaw, Nat.div_div_eq_div_mul, Nat.le_div_iff_mul_le hpos]
  omega

theorem lt_of_pfdChecked_ok {p : Params} {ref d r h f : Nat} (hok : pfdChecked p ref d r h = .ok f) (hd : d ≤ 1) :
    f < 2 ^ 64 := by
  obtain ⟨-, href, -, -, rfl⟩ := pfdChecked_ok hok
  simp only [refMaxHz] at href
  have hmul : ref * (1 + d) ≤ ref * 2 := Nat.mul_le_mul_left ref (by omega)
  calc ref * (1 + d) / r / (1 + h) ≤ ref * (1 + d) := (Nat.div_le_self _ _).trans (Nat.div_le_self _ _)
    _ < 2 ^ 64 := by omega

/-! ## The divider search that finds nothing (R116) -/

theorem planCompute_of_candidates_out_of_range {p : Params} {ref target m : Nat} {path : RefPath} (hm2 : 2 ≤ m)
    (hm : m ≤ 4095) (h : ∀ k ≤ 6, target * 2 ^ k < p.vcoMin ∨ p.vcoMax < target * 2 ^ k) :
    planCompute p ref target m path = .error .invalidOutputFrequency := by
  have hmodulus : ¬(m < modMin ∨ modMax < m) := not_or.2 ⟨hm2.not_gt, hm.not_gt⟩
  obtain ⟨k, hk, hsearch, -⟩ := dividerSearch_spec p.vcoMin maxStages target 0
  by_cases htarget : target < outMinHz p ∨ outMaxHz p < target
  · exact planCompute_of_target_out_of_range hm2 hm htarget
  · simp only [planCompute, if_neg hmodulus, if_neg htarget, hsearch, if_pos (h k hk)]

/-! ## The Register Set for hardware (R27, R126) -/

/-- Where the two prescaler codes differ, the code tells the floor of INT. -/
theorem floor_of_prescalerCode {c : EnumCodes} (h : c.pscHigh ≠ c.pscLow) (psc : Prescaler) :
    (if prescalerCode c psc = c.pscHigh.toNat then 75 else 23) = intFloor psc := by
  cases psc
  · exact if_neg fun heq => h (BitVec.eq_of_toNat_eq heq.symm)
  · exact if_pos rfl

/-- Raised to its floor, an INT that fits 16 bits still fits them. -/
theorem HoldsPlan.floor_le_int {c : EnumCodes} {v : PlanValues} {x : Words} (holds : HoldsPlan c v x) (hint : v.int < 65536) :
    intFloor v.psc ≤ fieldValue x .int := by
  have hfloor : intFloor v.psc < 65536 := by cases v.psc <;> decide
  rw [holds.int, Nat.mod_eq_of_lt (max_lt hint hfloor)]
  exact le_max_right _ _

theorem HoldsPlan.validForHardware {c : EnumCodes} {v : PlanValues} {x : Words} (holds : HoldsPlan c v x) (hfits : FitsFields v)
    (hwf : x.wf = true) (hcodes : c.pscHigh ≠ c.pscLow) (hfrac : v.frac < v.modulus) (hmod : 2 ≤ v.modulus)
    (hint : v.int < 65536) : validForHardware c x = true := by
  simp only [Machine.validForHardware, Bool.and_eq_true, decide_eq_true_eq]
  rw [holds.frac, holds.mod, holds.prescaler, holds.rCounter, holds.rfDividerSelect, floor_of_prescalerCode hcodes]
  exact ⟨⟨⟨⟨⟨⟨hfrac, hmod⟩, holds.floor_le_int hint⟩, hfits.one_le_r⟩, hfits.r_le⟩, hfits.stages⟩, hwf⟩

/-! ## The reference path of auto mode (R119) -/

/-- The model's `ceilDiv` is Mathlib's, and so the smallest number of `b`s that reach `a`. -/
theorem ceilDiv_le_iff {a b c : Nat} (hb : 0 < b) : ceilDiv a b ≤ c ↔ a ≤ b * c := by
  rw [ceilDiv, ← Nat.ceilDiv_eq_add_pred_div]
  exact ceilDiv_le_iff_le_mul hb

/-- Under valid parameters the clamp to 1..1023 does not bite: the divisor is at most 10. -/
theorem refPathSelect_auto {p : Params} {ref : Nat} (hp : p.Valid) (hlo : 10000000 ≤ ref) (hhi : ref < 250000000) :
    refPathSelect p ref .auto = (1, 1, ceilDiv ref p.pfdMaxFrac) := by
  obtain ⟨-, -, -, -, hfrac, -⟩ := hp
  have hpos : 0 < p.pfdMaxFrac := by omega
  have hten : ceilDiv ref p.pfdMaxFrac ≤ 10 := (ceilDiv_le_iff hpos).2 (by omega)
  have hone : ¬ceilDiv ref p.pfdMaxFrac ≤ 0 := fun hzero => by
    have := (ceilDiv_le_iff hpos).1 hzero
    omega
  simp only [refPathSelect, clamp, rMin, rMax, Prod.mk.injEq, true_and]
  omega

/-- The ceiling on f_pfd never makes auto mode fail: with both options on f_pfd is at most ref / r (R119). -/
theorem pfdChecked_auto {p : Params} {ref : Nat} (hp : p.Valid) (hlo : 10000000 ≤ ref) (hhi : ref < 250000000) :
    ∃ f, pfdChecked p ref 1 (ceilDiv ref p.pfdMaxFrac) 1 = .ok f := by
  obtain ⟨-, -, hr1, -⟩ := refPathSelect_bounds (refPathSelect_auto hp hlo hhi)
  obtain ⟨-, -, -, -, hfrac, hint⟩ := hp
  have hceil : ref ≤ p.pfdMaxFrac * ceilDiv ref p.pfdMaxFrac := (ceilDiv_le_iff (by omega)).1 le_rfl
  refine ⟨_, pfdChecked_of_pass hlo hhi (by omega) (le_trans ?_ hint)⟩
  rw [Nat.div_right_comm, Nat.mul_div_cancel _ (by norm_num)]
  exact Nat.div_le_of_le_mul (by rwa [mul_comm])

theorem planCompute_auto_ne_invalidReference {p : Params} {ref target m : Nat} (hp : p.Valid) (hlo : 10000000 ≤ ref)
    (hhi : ref < 250000000) : planCompute p ref target m .auto ≠ .error .invalidReferenceFrequency := by
  by_cases hm : m < 2 ∨ 4095 < m
  · rw [planCompute_of_bad_modulus hm]
    decide
  obtain ⟨hm2, hm⟩ := not_or.1 hm
  by_cases ht : target < (p.vcoMin + 63) / 64 ∨ p.vcoMax < target
  · rw [planCompute_of_target_out_of_range (not_lt.1 hm2) (not_lt.1 hm) ht]
    decide
  obtain ⟨htlo, hthi⟩ := not_or.1 ht
  obtain ⟨k, -, hplan, -⟩ := planCompute_of_valid (m := m) hp (not_lt.1 hm2) (not_lt.1 hm) (not_lt.1 htlo) (not_lt.1 hthi)
    (refPathSelect_auto hp hlo hhi)
  obtain ⟨f, hpfd⟩ := pfdChecked_auto hp hlo hhi
  rw [hplan, hpfd]
  exact nofun

/-! ## FOUT after PLAN (R126) -/

/-- Splitting a quotient into whole and fractional parts and adding them up again loses nothing. -/
theorem int_part_add_frac_part_eq (q f : Nat) {m : Nat} (hm : 0 < m) : q / m * f + q % m * f / m = q * f / m := by
  rw [← Nat.mul_add_div hm, ← mul_assoc, ← add_mul, Nat.div_add_mod]

/-- FOUT's formula on PLAN's values, where INT is neither raised nor cut: two roundings down of the target. -/
theorem foutValue_of_holdsPlan_eq {c : EnumCodes} {target k d h r m f : Nat} {x : Words}
    (holds : HoldsPlan c (derivedValues target k d h r m f) x) (hm : 0 < m)
    (hfloor : intFloor (selectPrescaler target) ≤ target * 2 ^ k * m / f / m)
    (hfits : target * 2 ^ k * m / f / m < 65536) :
    foutValue x f = target * (m * 2 ^ k) / f * f / (m * 2 ^ k) := by
  have hint : fieldValue x .int = target * 2 ^ k * m / f / m := by
    rw [← Nat.mod_eq_of_lt hfits, ← max_eq_left hfloor]
    exact holds.int
  rw [foutValue, hint, holds.frac, holds.mod, holds.rfDividerSelect, ← Nat.div_div_eq_div_mul, mul_comm m, ← mul_assoc]
  exact congrArg (· / 2 ^ k) (int_part_add_frac_part_eq _ f hm)

/-- Rounding a multiple of `u` down to a multiple of `f` and then to one of `u` loses less than `f + u`. -/
theorem round_down_twice {a u f : Nat} (hu : 0 < u) (hf : 0 < f) :
    a * u / f * f / u ≤ a ∧ (a - a * u / f * f / u) * u < f + u := by
  have hle : a * u / f * f ≤ a * u := Nat.div_mul_le_self _ _
  have hlt : a * u < a * u / f * f + f := Nat.lt_div_mul_add hf
  have hlt' : a * u / f * f < a * u / f * f / u * u + u := Nat.lt_div_mul_add hu
  refine ⟨Nat.div_le_of_le_mul (by rwa [mul_comm u]), ?_⟩
  rw [Nat.sub_mul]
  omega

/-! ## Options outside the twelve fields (R105) -/

theorem applyWrites_rsetWords_comm (psc : Prescaler) (ws : List (RegField × Nat)) (x : Words) {g : RegField} (v : Nat)
    (p : Prescaler) (h : ∀ w ∈ ws, g ≠ w.1) :
    applyWrites psc ws (rsetWords g v p x) = rsetWords g v p (applyWrites psc ws x) := by
  induction ws generalizing x with
  | nil => rfl
  | cons w ws ih =>
    obtain ⟨hw, hws⟩ := List.forall_mem_cons.1 h
    calc applyWrites psc ws (rsetWords w.1 w.2 psc (rsetWords g v p x))
        = applyWrites psc ws (rsetWords g v p (rsetWords w.1 w.2 psc x)) := by rw [rsetWords_comm x v w.2 p psc hw]
      _ = rsetWords g v p (applyWrites psc ws (rsetWords w.1 w.2 psc x)) := ih _ hws

theorem plannedWords_rsetWords_comm (c : EnumCodes) (pv : PlanValues) (x : Words) {g : RegField} (v : Nat) (p : Prescaler)
    (hg : g ∉ planFields) : plannedWords c pv (rsetWords g v p x) = rsetWords g v p (plannedWords c pv x) :=
  applyWrites_rsetWords_comm _ _ x v p fun _ hw heq => hg (heq ▸ fst_mem_planFields hw)

/-! ## The obligations -/

/-- Settles O24: `le_of_pfdChecked_ok`; the frequency fits the result latch. -/
theorem pfdLowerBound : Obligations.PfdLowerBound := by
  intro ref d h r s t _ hr he hok
  obtain ⟨f, hpfd, hresult⟩ := pfd_ok he hok
  rw [hresult, BitVec.toNat_ofNat, Nat.mod_eq_of_lt (lt_of_pfdChecked_ok hpfd (Bool.toNat_le d))]
  exact le_of_pfdChecked_ok hpfd hr (Bool.toNat_le h)

/-- Settles O27: the search ends on one of the candidates, and each is outside the VCO range. -/
theorem planRejectsCandidateOutsideVco : Obligations.PlanRejectsCandidateOutsideVco :=
  fun _ _ _ _ _ hm2 hm hout => plan_endsIn (planCompute_of_candidates_out_of_range hm2 hm hout)

/-- Settles O28: the twelve fields hold PLAN's values, whose bounds are those of R27. -/
theorem plannedRegisterSetIsValid : Obligations.PlannedRegisterSetIsValid := by
  intro ref target m path s t hwf hcodes he hok
  obtain ⟨v, hv, -, -, holds⟩ := plan_ok he hok
  have hfits := planCompute_ok_fitsFields hv
  obtain ⟨-, -, -, -, hkeeps⟩ := exec_frame he
  obtain ⟨k, d, h, r, f, hm2, -, -, -, hk, hmin, hmax, -, -, hpfd, rfl⟩ := planCompute_ok hv
  obtain ⟨-, -, -, -, hraw⟩ := pfdChecked_ok hpfd
  have hfrac : target.toNat * 2 ^ k * m.toNat / f % m.toNat < m.toNat := Nat.mod_lt _ (by omega)
  simp only [holds.rfDividerSelect, holds.refDoubler, holds.rCounter, holds.rdiv2, holds.frac, holds.mod]
  refine ⟨hk, hmin, hmax, hfrac, fun hint => holds.validForHardware hfits (hkeeps hwf) hcodes hfrac hm2 ?_⟩
  rw [hraw]
  exact hint

/-- Settles O29: in auto mode R_COUNTER is the rounded-up quotient, which `ceilDiv_le_iff` says is the smallest. -/
theorem autoPathKeepsFractionalCeiling : Obligations.AutoPathKeepsFractionalCeiling := by
  intro ref target m s t hvalid he
  constructor
  · intro hok
    obtain ⟨v, hv, -, -, holds⟩ := plan_ok he hok
    have hfits := planCompute_ok_fitsFields hv
    obtain ⟨k, d, h, r, f, -, -, -, -, -, -, -, -, hpath, hpfd, rfl⟩ := planCompute_ok hv
    obtain ⟨hlo, hhi, -, -, -⟩ := pfdChecked_ok hpfd
    rw [refPathSelect_auto hvalid hlo hhi] at hpath
    cases hpath
    obtain ⟨-, -, -, -, hmax, -⟩ := hvalid
    have hleast (r : Nat) := @ceilDiv_le_iff ref.toNat s.params.pfdMaxFrac r (by omega)
    rw [holds.refDoubler, holds.rdiv2, holds.rCounter]
    refine ⟨rfl, rfl, hfits.one_le_r, ?_, fun r _ hr => ?_⟩
    · rw [mul_comm]
      exact (hleast _).1 le_rfl
    · rw [mul_comm]
      exact not_le.1 fun hle => hr.not_ge ((hleast r).2 hle)
  · intro hstatus
    by_contra hrange
    obtain ⟨hlo, hhi⟩ := not_or.1 hrange
    obtain ⟨st, herr, rfl⟩ | ⟨v, -, rfl⟩ := plan_cases he
    · obtain rfl : st = .invalidReferenceFrequency := hstatus
      exact planCompute_auto_ne_invalidReference hvalid (not_lt.1 hlo) (not_le.1 hhi) herr
    · cases hstatus

/-- Settles O32: FOUT reads back PLAN's phase-detector frequency, and its answer is the target rounded down twice. -/
theorem planErrorWithinChannelStep : Obligations.PlanErrorWithinChannelStep := by
  intro ref target m path s t u f k he hok hk hf hfloor hfits hefout hokfout
  obtain ⟨v, hv, -, -, holds⟩ := plan_ok he hok
  obtain ⟨k', d, h, r, f', hm2, -, -, -, -, -, -, -, -, hpfd, rfl⟩ := planCompute_ok hv
  obtain ⟨-, -, -, -, hraw⟩ := pfdChecked_ok hpfd
  obtain rfl : k = k' := hk.trans holds.rfDividerSelect
  obtain rfl : f = f' := by rw [hf, hraw, holds.refDoubler, holds.rCounter, holds.rdiv2, pfdRaw]
  obtain ⟨w, hw, hresult⟩ := fout_ok hefout hokfout
  obtain ⟨g, hg, rfl⟩ := foutCompute_ok hw
  obtain ⟨-, -, -, -, hgraw⟩ := pfdChecked_ok hg
  obtain rfl : g = f := hgraw.trans hf.symm
  have hpos : 0 < g := Nat.pos_of_ne_zero fun hzero => by
    rw [hzero, Nat.div_zero, Nat.zero_div] at hfloor
    split_ifs at hfloor <;> omega
  have hunit : 0 < m.toNat * 2 ^ k := Nat.mul_pos (by omega) (Nat.two_pow_pos k)
  obtain ⟨hle, hshort⟩ := round_down_twice (a := target.toNat) hunit hpos
  rw [← intFloor_selectPrescaler] at hfloor
  rw [← foutValue_of_holdsPlan_eq holds (by omega) hfloor hfits] at hle hshort
  rw [hresult, BitVec.toNat_ofNat, Nat.mod_eq_of_lt (lt_of_le_of_lt hle target.isLt)]
  exact ⟨hle, by omega⟩

/-- Settles O33: an RSET of another field commutes with each of PLAN's writes, and PLAN reads no register. -/
theorem staticOptionsCommuteWithPlan : Obligations.StaticOptionsCommuteWithPlan := by
  intro ref target m path g p v s t hg he hok
  obtain ⟨pv, hpv, -, hx, -⟩ := plan_ok he hok
  refine ⟨_, _, rset_completes g p v s, rset_completes g p v t, fun u hux hparams => ?_⟩
  rw [hx, ← plannedWords_rsetWords_comm _ _ _ _ _ hg, ← hux, ← hparams]
  exact plan_completes (hparams ▸ hpv)

/-- Settles O34: V1 evaluated, PLAN's values first and then the words they leave. -/
theorem sourceScenario : Obligations.SourceScenario := by
  constructor
  · have hplan : planCompute State.reset.params 25000000 63000000 4000 (.manual true true 1) =
        .ok { psc := .low, stages := 6, doubler := 1, div2 := 1, r := 1, int := 161, frac := 1120, modulus := 4000 } := rfl
    exact plan_completes (ref := 25000000) (target := 63000000) (m := 4000) (s := .reset) hplan
  · intro s hparams hx
    have hfout : foutCompute s.params s.x 25000000 = .ok 63000000 := by
      rw [hparams, hx]
      rfl
    exact fout_completes hfout

end Sys2Proof.Machine
end

section
/-! PROOFS of 43_device_writer.md, continued. WWRITE by the Device Writer's answer, the successful writes of PROG up to the end
or the first failure, and two runs that differ in the past of the chip and the wire only. -/

namespace Sys2Proof.Machine

/-! ## The Device Writer's answer -/

theorem takeAnswer_cons {s : State} {a : Answer} {rest : List Answer} (h : s.answers = a :: rest) :
    takeAnswer s = (a, { s with answers := rest }) := by
  simp only [takeAnswer, h]

theorem takeAnswer_nil {s : State} (h : s.answers = []) :
    takeAnswer s = (Config.freeAnswer s.free, { s with free := s.free + 1 }) := by
  simp only [takeAnswer, h]

theorem sendWord_of_ok {s : State} {rest : List Answer} (h : s.answers = .ok :: rest) (w : Word) :
    sendWord w s = (.ok, record (.written w) (memWrite w { s with answers := rest })) := by
  simp only [sendWord, takeAnswer_cons h]

theorem sendWord_of_error {s : State} {e : TransportError} {rest : List Answer} (h : s.answers = .error e :: rest) (w : Word) :
    sendWord w s = (.error e, record (.failed w e) (failedWrite w { s with answers := rest })) := by
  simp only [sendWord, takeAnswer_cons h]

/-- The write of register 0 is the one that records a Resync (R33). -/
theorem triggersResync_iff (w : Word) : triggersResync w = true ↔ w.toNat % 8 = 0 := by
  rw [triggersResync, beq_iff_eq, (latchOf_iff w).2, eq_comm]
  rfl

/-- The same words on the line, as the statements write them. -/
theorem lineEvents_eq_wordOnLine (w : Word) : lineEvents w = wordOnLine w := rfl

theorem latchOf_taggedWord (x : Words) (a : Reg) : latchOf (taggedWord x a) = some a := latchOf_readReg x a

theorem triggersResync_taggedWord (x : Words) (a : Reg) : triggersResync (taggedWord x a) = (a == .r0) := by
  rw [triggersResync, latchOf_taggedWord]
  rfl

/-! ## WWRITE (R141 to R143) -/

section Wwrite

variable {w : Word} {s : State}

theorem writeWord_of_badTag (h : 6 ≤ w.toNat % 8) : writeWord w s = raise .badTag s :=
  if_pos (Option.isNone_iff_eq_none.2 ((latchOf_iff w).1.2 h))

theorem writeWord_of_tag (h : w.toNat % 8 < 6) :
    writeWord w s =
      match sendWord w s with
      | (.ok, s1) => complete 0 s1
      | (.error e, s1) => raise (.ofTransport e) s1 :=
  if_neg fun hnone => by
    have := (latchOf_iff w).1.1 (Option.isNone_iff_eq_none.1 hnone)
    omega

theorem writeWord_of_ok (htag : w.toNat % 8 < 6) {rest : List Answer} (h : s.answers = .ok :: rest) :
    writeWord w s = complete 0 (record (.written w) (memWrite w { s with answers := rest })) := by
  rw [writeWord_of_tag htag, sendWord_of_ok h]

theorem writeWord_of_error (htag : w.toNat % 8 < 6) {e : TransportError} {rest : List Answer}
    (h : s.answers = .error e :: rest) :
    writeWord w s = raise (.ofTransport e) (record (.failed w e) (failedWrite w { s with answers := rest })) := by
  rw [writeWord_of_tag htag, sendWord_of_error h]

theorem latchWord_get_of_tag (v : Word) (dev : Words) (a : Reg) :
    (latchWord w v dev).get a = if a.number = w.toNat % 8 then v else dev.get a := by
  simp only [latchWord_get, (latchOf_iff w).2]

theorem wwrite_sendsWord (htag : w.toNat % 8 < 6) : SendsWord (.wwrite w) w s := by
  refine ⟨fun rest hok => ⟨_, rfl, ?_⟩, fun e rest herr => ⟨_, rfl, ?_⟩, ⟨_, rfl, ?_⟩⟩
  · rw [writeWord_of_ok htag hok]
    refine ⟨rfl, rfl, rfl, rfl, rfl, rfl, latchWord_get_of_tag w s.dev, ?_, rfl, rfl, rfl⟩
    simp only [complete_resyncs, record_resyncs, memWrite_resyncs, triggersResync_iff]
  · rw [writeWord_of_error htag herr]
    refine ⟨(statusOfError_eq_ofTransport e).symm, rfl, rfl, rfl, ⟨_, rfl⟩, fun a ha => ?_, fun hne => ?_, rfl, rfl, rfl⟩
    · exact (latchWord_get_of_tag _ _ a).trans (if_neg ha)
    · simp [triggersResync_iff, hne]
  · rw [writeWord_of_tag htag]
    obtain ⟨s1, hsend, hhist⟩ | ⟨e, s1, hsend, hhist⟩ := sendWord_hist_cases w s <;> rw [hsend]
    · exact .inl ⟨rfl, hhist⟩
    · exact .inr ⟨e, (statusOfError_eq_ofTransport e).symm, hhist⟩

end Wwrite

/-! ## The successful writes of PROG (R144) -/

/-- The state after the words of these registers were written, all with the answer Ok. -/
def afterWrites (x : Words) (regs : List Reg) (s : State) : State :=
  { s with
    hist := s.hist ++ regs.map fun a => .written (taggedWord x a)
    line := s.line ++ regs.flatMap fun a => wordOnLine (taggedWord x a)
    dev := regs.foldl (fun dev a => latchWord (taggedWord x a) (taggedWord x a) dev) s.dev
    resyncs := s.resyncs + regs.count .r0
    answers := s.answers.drop regs.length }

theorem sendWord_taggedWord_of_ok {s : State} {rest : List Answer} (h : s.answers = .ok :: rest) (x : Words) (a : Reg) :
    sendWord (taggedWord x a) s = (.ok, afterWrites x [a] s) := by
  rw [sendWord_of_ok h]
  simp [record, memWrite, afterWrites, lineEvents_eq_wordOnLine, triggersResync_taggedWord, h, List.count_cons]

theorem afterWrites_cons (x : Words) (a : Reg) (regs : List Reg) (s : State) :
    afterWrites x (a :: regs) s = afterWrites x regs (afterWrites x [a] s) := by
  simp [afterWrites, List.count_cons, Nat.add_comm, Nat.add_left_comm]

/-- As long as the Device Writer answers Ok the loop goes on, counting the words (R144). -/
theorem sendWords_of_ok (x : Words) (regs : List Reg) (ws : List Word) (n : Nat) {s : State} {rest : List Answer}
    (h : s.answers = List.replicate regs.length .ok ++ rest) :
    sendWords (regs.map (taggedWord x) ++ ws) n s = sendWords ws (n + regs.length) (afterWrites x regs s) := by
  induction regs generalizing n s with
  | nil => simp [afterWrites]
  | cons a regs ih =>
    have hok : s.answers = .ok :: (List.replicate regs.length .ok ++ rest) := h
    have hrest : (afterWrites x [a] s).answers = List.replicate regs.length .ok ++ rest := by
      simp [afterWrites, hok]
    rw [List.map_cons, List.cons_append, sendWords_cons, sendWord_taggedWord_of_ok hok, afterWrites_cons x a regs s]
    dsimp only
    rw [ih (n + 1) hrest, List.length_cons, Nat.add_assoc, Nat.add_comm 1]

/-- After the writes the latches of the written registers hold their words, and the others are as before (R33). -/
theorem afterWrites_dev_get (x : Words) (regs : List Reg) (s : State) (b : Reg) :
    (afterWrites x regs s).dev.get b = if b ∈ regs then taggedWord x b else s.dev.get b := by
  induction regs generalizing s with
  | nil => rfl
  | cons a regs ih =>
    rw [afterWrites_cons, ih]
    have hone : (afterWrites x [a] s).dev.get b = if a = b then taggedWord x a else s.dev.get b := by
      simp [afterWrites, latchWord_get, latchOf_taggedWord]
    by_cases hab : b = a
    · subst hab
      simp [hone]
    · simp [hone, hab, Ne.symm hab]

/-! ## The order of the wire (R38) -/

theorem mem_take_wireOrder_iff {i : Nat} (hi : i < 6) (b : Reg) : b ∈ wireOrder.take i ↔ 5 - i < b.number := by
  interval_cases i <;> cases b <;> decide

theorem wireOrder_eq_take_cons_drop {i : Nat} (hi : i < 6) :
    ∃ a, a.number = 5 - i ∧ wireOrder.drop i = a :: wireOrder.drop (i + 1) := by
  interval_cases i
  exacts [⟨.r5, rfl, rfl⟩, ⟨.r4, rfl, rfl⟩, ⟨.r3, rfl, rfl⟩, ⟨.r2, rfl, rfl⟩, ⟨.r1, rfl, rfl⟩, ⟨.r0, rfl, rfl⟩]

theorem sendWords_wireImage_of_ok (s : State) {rest : List Answer} (h : s.answers = List.replicate 6 .ok ++ rest) :
    sendWords (wireImage s.x) 0 s = complete 6 (afterWrites s.x wireOrder s) := by
  have hsend := sendWords_of_ok s.x wireOrder [] 0 h
  rwa [List.append_nil] at hsend

/-- The loop stops at the first failure with the number of words written before it (R145). -/
theorem sendWords_wireImage_of_error (s : State) {i : Nat} (hi : i < 6) {e : TransportError} {rest : List Answer}
    (h : s.answers = List.replicate i .ok ++ .error e :: rest) :
    ∃ a : Reg, a.number = 5 - i ∧ wireOrder.drop i = a :: wireOrder.drop (i + 1) ∧
      sendWords (wireImage s.x) 0 s =
        finish (.ofTransport e) (BitVec.ofNat 64 i) (record (.failed (taggedWord s.x a) e)
          (failedWrite (taggedWord s.x a) { afterWrites s.x (wireOrder.take i) s with answers := rest })) := by
  obtain ⟨a, hnumber, hdrop⟩ := wireOrder_eq_take_cons_drop hi
  have hlength : (wireOrder.take i).length = i := List.length_take_of_le (le_of_lt hi)
  have hrest : (afterWrites s.x (wireOrder.take i) s).answers = .error e :: rest := by
    simp [afterWrites, h, hlength]
  refine ⟨a, hnumber, hdrop, ?_⟩
  rw [wireImage_eq_map_wireOrder, ← List.take_append_drop i wireOrder, List.map_append,
    sendWords_of_ok s.x _ _ 0 (by rw [hlength]; exact h), hdrop, List.map_cons, sendWords_cons, sendWord_of_error hrest]
  simp [hlength]

/-! ## Runs that differ in the past of chip and wire (R31) -/

/-- From `s` to `t` and from `s'` to `t'` the block did the same, and the same went to the wire and was recorded. -/
structure RunsAlike (s s' t t' : State) : Prop where
  x : t'.x = t.x
  inbox : t'.inbox = t.inbox
  answers : t'.answers = t.answers
  params : t'.params = t.params
  free : t'.free = t.free
  hist : ∃ evs, t.hist = s.hist ++ evs ∧ t'.hist = s'.hist ++ evs
  line : ∃ evs, t.line = s.line ++ evs ∧ t'.line = s'.line ++ evs
  resyncs : ∃ k, t.resyncs = s.resyncs + k ∧ t'.resyncs = s'.resyncs + k

/-- The outcome on the ports is the same. -/
structure SamePorts (t t' : State) : Prop where
  status : t'.status = t.status
  result : t'.result = t.result
  wout : t'.wout = t.wout

theorem SamePorts.driveWords {t t' : State} (h : SamePorts t t') (ws : List Word) :
    SamePorts (driveWords ws t) (driveWords ws t') := { h with wout := rfl }

namespace RunsAlike

variable {s s' t t' u u' : State}

theorem trans (h : RunsAlike s s' t t') (g : RunsAlike t t' u u') : RunsAlike s s' u u' := by
  obtain ⟨evs, hs, hs'⟩ := h.hist
  obtain ⟨evs', ht, ht'⟩ := g.hist
  obtain ⟨l, ls, ls'⟩ := h.line
  obtain ⟨l', lt, lt'⟩ := g.line
  obtain ⟨k, ks, ks'⟩ := h.resyncs
  obtain ⟨k', kt, kt'⟩ := g.resyncs
  exact ⟨g.x, g.inbox, g.answers, g.params, g.free,
    ⟨evs ++ evs', by rw [ht, hs, List.append_assoc], by rw [ht', hs', List.append_assoc]⟩,
    ⟨l ++ l', by rw [lt, ls, List.append_assoc], by rw [lt', ls', List.append_assoc]⟩,
    ⟨k + k', by rw [kt, ks, Nat.add_assoc], by rw [kt', ks', Nat.add_assoc]⟩⟩

/-- Before anything happened. -/
theorem start (hx : s'.x = s.x) (hinbox : s'.inbox = s.inbox) (hanswers : s'.answers = s.answers)
    (hparams : s'.params = s.params) (hfree : s'.free = s.free) : RunsAlike s s' s s' :=
  ⟨hx, hinbox, hanswers, hparams, hfree, ⟨[], by simp⟩, ⟨[], by simp⟩, ⟨0, rfl, rfl⟩⟩

/-- From here on, with what happened so far left out. -/
theorem restart (h : RunsAlike s s' t t') : RunsAlike t t' t t' := start h.x h.inbox h.answers h.params h.free

theorem finish (h : RunsAlike s s' t t') (st : Status) (v : Dword) :
    RunsAlike s s' (Machine.finish st v t) (Machine.finish st v t') := { h with }

theorem raise (h : RunsAlike s s' t t') (st : Status) : RunsAlike s s' (Machine.raise st t) (Machine.raise st t') :=
  { h with free := congrArg (· + 1) h.free }

theorem raise_samePorts (h : RunsAlike s s' t t') (st : Status) : SamePorts (Machine.raise st t) (Machine.raise st t') :=
  ⟨rfl, congrArg Config.freeResult h.free, rfl⟩

theorem conclude (h : RunsAlike s s' t t') (r : Except Status Dword) :
    RunsAlike s s' (Machine.conclude r t) (Machine.conclude r t') := by
  cases r with
  | ok v => exact h.finish .ok v
  | error st => exact h.raise st

theorem conclude_samePorts (h : RunsAlike s s' t t') (r : Except Status Dword) :
    SamePorts (Machine.conclude r t) (Machine.conclude r t') := by
  cases r with
  | ok v => exact ⟨rfl, rfl, rfl⟩
  | error st => exact h.raise_samePorts st

theorem driveWords (h : RunsAlike s s' t t') (ws : List Word) :
    RunsAlike s s' (Machine.driveWords ws t) (Machine.driveWords ws t') := { h with }

theorem setRegisters (h : RunsAlike s s' t t') (x : Words) : RunsAlike s s' { t with x := x } { t' with x := x } :=
  { h with x := rfl }

/-- The Device Writer answers both alike. -/
theorem takeAnswer (h : RunsAlike s s' s s') :
    (takeAnswer s').1 = (takeAnswer s).1 ∧ RunsAlike s s' (takeAnswer s).2 (takeAnswer s').2 := by
  rcases hs : s.answers with _ | ⟨a, rest⟩ <;> have hs' := h.answers.trans hs
  · rw [takeAnswer_nil hs, takeAnswer_nil hs']
    exact ⟨congrArg Config.freeAnswer h.free, { h with free := congrArg (· + 1) h.free }⟩
  · rw [takeAnswer_cons hs, takeAnswer_cons hs']
    exact ⟨rfl, { h with answers := rfl }⟩

theorem memWrite (w : Word) (h : RunsAlike s s' s s') : RunsAlike s s' (memWrite w s) (memWrite w s') :=
  { h with hist := ⟨[], by simp⟩, line := ⟨_, rfl, rfl⟩, resyncs := ⟨_, rfl, rfl⟩ }

theorem failedWrite (w : Word) (h : RunsAlike s s' s s') : RunsAlike s s' (failedWrite w s) (failedWrite w s') where
  x := h.x
  inbox := h.inbox
  answers := h.answers
  params := h.params
  free := congrArg (· + 1) h.free
  hist := ⟨[], by simp⟩
  line := ⟨_, rfl, by rw [failedWrite_line, h.free]⟩
  resyncs := ⟨_, rfl, by rw [failedWrite_resyncs, h.free]⟩

theorem record (ev : WireEvent) (h : RunsAlike s s' s s') : RunsAlike s s' (record ev s) (record ev s') :=
  { h with hist := ⟨_, rfl, rfl⟩ }

theorem sendWord (w : Word) (h : RunsAlike s s' s s') :
    (sendWord w s').1 = (sendWord w s).1 ∧ RunsAlike s s' (sendWord w s).2 (sendWord w s').2 := by
  obtain ⟨hanswer, halike⟩ := h.takeAnswer
  obtain ⟨s1, htake, hsend⟩ | ⟨e, s1, htake, hsend⟩ := sendWord_cases w s <;>
    obtain ⟨s1', htake', hsend'⟩ | ⟨e', s1', htake', hsend'⟩ := sendWord_cases w s' <;>
    rw [htake, htake'] at hanswer halike <;> rw [hsend, hsend'] <;> cases hanswer
  · have hwrite := halike.trans (halike.restart.memWrite w)
    exact ⟨rfl, hwrite.trans (hwrite.restart.record _)⟩
  · have hwrite := halike.trans (halike.restart.failedWrite w)
    exact ⟨rfl, hwrite.trans (hwrite.restart.record _)⟩

theorem writeWord (w : Word) (h : RunsAlike s s' s s') :
    RunsAlike s s' (writeWord w s) (writeWord w s') ∧ SamePorts (writeWord w s) (writeWord w s') := by
  unfold Machine.writeWord
  split_ifs
  · exact ⟨h.raise _, h.raise_samePorts _⟩
  obtain ⟨hanswer, halike⟩ := h.sendWord w
  rcases hs : Machine.sendWord w s with ⟨a, s1⟩
  rcases hs' : Machine.sendWord w s' with ⟨a', s1'⟩
  rw [hs, hs'] at hanswer halike
  obtain rfl : a' = a := hanswer
  cases a' with
  | ok => exact ⟨halike.finish .ok 0, ⟨rfl, rfl, rfl⟩⟩
  | error e => exact ⟨halike.raise _, halike.raise_samePorts _⟩

theorem sendWords (ws : List Word) (n : Nat) (h : RunsAlike s s' s s') :
    RunsAlike s s' (sendWords ws n s) (sendWords ws n s') ∧ SamePorts (sendWords ws n s) (sendWords ws n s') := by
  induction ws generalizing n s s' with
  | nil => exact ⟨h.finish .ok _, ⟨rfl, rfl, rfl⟩⟩
  | cons w ws ih =>
    obtain ⟨hanswer, halike⟩ := h.sendWord w
    rw [sendWords_cons, sendWords_cons]
    rcases hs : Machine.sendWord w s with ⟨a, s1⟩
    rcases hs' : Machine.sendWord w s' with ⟨a', s1'⟩
    rw [hs, hs'] at hanswer halike
    obtain rfl : a' = a := hanswer
    cases a' with
    | ok =>
      obtain ⟨hrest, hports⟩ := ih (n + 1) halike.restart
      exact ⟨halike.trans hrest, hports⟩
    | error e => exact ⟨halike.finish _ _, ⟨rfl, rfl, rfl⟩⟩

end RunsAlike

/-- What an operation does depends on the Register Set, the inputs, the answers, the parameters and the counter of free values. -/
theorem exec_runsAlike {i : Instr} {s s' t : State} (he : exec i s = .next t) (h : RunsAlike s s' s s') :
    ∃ t', exec i s' = .next t' ∧ RunsAlike s s' t t' ∧ SamePorts t t' := by
  cases i
  case plan ref target m path =>
    obtain ⟨e, herr, rfl⟩ | ⟨pv, hpv, rfl⟩ := plan_cases he
    · refine ⟨raise e s', ?_, h.raise e, h.raise_samePorts e⟩
      rw [exec, execPlan, h.params, herr]
    · refine ⟨complete 0 { s' with x := applyWrites pv.psc (planWrites s.params.codes pv) s.x }, ?_,
        (h.setRegisters _).finish .ok 0, ⟨rfl, rfl, rfl⟩⟩
      rw [exec, execPlan, h.params, h.x, hpv]
  case wwrite w =>
    cases he
    exact ⟨_, rfl, h.writeWord w⟩
  case prog =>
    cases he
    obtain ⟨halike, hports⟩ := h.sendWords (wireImage s.x) 0
    refine ⟨driveWords (wireImage s.x) (sendWords (wireImage s.x) 0 s'), ?_, halike.driveWords _,
      hports.driveWords _⟩
    rw [exec, execProg, h.x]
  case fget | fset =>
    cases he
    exact ⟨_, rfl, h.conclude _, h.conclude_samePorts _⟩
  case pfd =>
    cases he
    refine ⟨conclude _ s', ?_, h.conclude _, h.conclude_samePorts _⟩
    rw [exec, execPfd, h.params]
  case fout =>
    cases he
    refine ⟨conclude _ s', ?_, h.conclude _, h.conclude_samePorts _⟩
    rw [exec, execFout, h.params, h.x]
  case w0 | w1 | w2 | w3 | w4 | w5 =>
    cases he
    exact ⟨_, rfl, h.raise _, h.raise_samePorts _⟩
  case rsdef =>
    cases he
    exact ⟨_, rfl, (h.setRegisters _).finish .ok 0, ⟨rfl, rfl, rfl⟩⟩
  case rset f p v =>
    cases he
    refine ⟨complete 0 { s' with x := rsetWords f v.toNat p s.x }, ?_, (h.setRegisters _).finish .ok 0, ⟨rfl, rfl, rfl⟩⟩
    rw [exec, execRset, h.x]
  case rser =>
    cases he
    refine ⟨driveWords (wireImage s.x) (complete 0 s'), ?_, (h.finish .ok 0).driveWords _, ⟨rfl, rfl, rfl⟩⟩
    rw [exec, execRser, h.x]
  case rget f =>
    cases he
    refine ⟨complete (BitVec.ofNat 64 (getField s.x f)) s', ?_, h.finish .ok _, ⟨rfl, rfl, rfl⟩⟩
    rw [exec, execRget, h.x]
  case rword a =>
    cases he
    refine ⟨complete ((readReg s.x a).setWidth 64) s', ?_, h.finish .ok _, ⟨rfl, rfl, rfl⟩⟩
    rw [exec, execRword, h.x]

/-! ## The obligations -/

/-- Settles O35: `writeWord` by the tag of the word and the Device Writer's answer. -/
theorem wwriteFollowsDeviceWriter : Obligations.WwriteFollowsDeviceWriter :=
  fun _ _ => ⟨fun htag => endsIn_of_exec (congrArg Host.Outcome.next (writeWord_of_badTag htag)), wwrite_sendsWord⟩

/-- Settles O36: six successful writes in the order of the wire. -/
theorem progSendsWireImage : Obligations.ProgSendsWireImage := by
  intro s rest h
  have hall : ∀ a, a ∈ wireOrder := fun a => by cases a <;> decide
  have hanswers : s.answers.drop 6 = rest := by simp [h]
  refine ⟨_, rfl, ?_⟩
  rw [sendWords_wireImage_of_ok s h]
  exact ⟨rfl, rfl, rfl, rfl, rfl, rfl, fun a => (afterWrites_dev_get _ _ s a).trans (if_pos (hall a)), rfl, hanswers, rfl, rfl⟩

/-- Settles O37: the writes before the failure, and the failed write of the register whose turn it was. -/
theorem progStopsAtFirstFailure : Obligations.ProgStopsAtFirstFailure := by
  intro s i e rest hi h
  obtain ⟨a, hnumber, hdrop, hsend⟩ := sendWords_wireImage_of_error s hi h
  have hdev (b : Reg) (hb : b ≠ a) :
      (sendWords (wireImage s.x) 0 s).dev.get b = if 5 - i < b.number then taggedWord s.x b else s.dev.get b := by
    rw [hsend]
    simp only [finish_dev, record_dev, failedWrite_dev, latchWord_get, latchOf_taggedWord, Option.some_inj, if_neg hb.symm,
      afterWrites_dev_get, mem_take_wireOrder_iff hi]
  refine ⟨_, rfl, ?status, ?result, ?x, ?hist, ?line, fun b hb => ?before, fun b hb => ?after, fun hfive => ?resyncs, ?answers,
    ?inbox, ?params⟩
  case before =>
    rw [driveWords_dev, hdev b (by rintro rfl; omega), if_neg (by omega)]
  case after =>
    rw [driveWords_dev, hdev b (by rintro rfl; omega), if_pos hb]
  all_goals rw [hsend]
  case status => exact (statusOfError_eq_ofTransport e).symm
  case hist =>
    rw [failedEvent, hdrop]
    rfl
  case line =>
    rw [hdrop]
    exact ⟨Config.freeLineProgress s.free, by simp [afterWrites, lineEvents_eq_wordOnLine]⟩
  case resyncs =>
    have hcount : (wireOrder.take i).count .r0 = 0 := List.count_eq_zero.2 fun hmem => by
      have := (mem_take_wireOrder_iff hi .r0).1 hmem
      simp [Reg.number] at this
    have ha : (a == .r0) = false := beq_false_of_ne fun heq => by
      rw [heq, Reg.number] at hnumber
      omega
    simp [afterWrites, hcount, triggersResync_taggedWord, ha]
  all_goals rfl

/-- Settles O42: `exec_runsAlike`. -/
theorem operationsDoNotReadTheChip : Obligations.OperationsDoNotReadTheChip := by
  intro i s t st v wo l h d n he
  have hstart : RunsAlike s { s with status := st, result := v, wout := wo, line := l, hist := h, dev := d, resyncs := n } s _ :=
    .start rfl rfl rfl rfl rfl
  obtain ⟨t', he', halike, hports⟩ := exec_runsAlike he hstart
  exact ⟨t', he', halike.x, hports.status, hports.result, hports.wout, halike.answers, halike.inbox, halike.params,
    halike.hist, halike.line, halike.resyncs⟩

end Sys2Proof.Machine
end

section
/-! PROOFS of 60_exceptions.md, continued. The statuses each instruction can end in, and where each error comes from. -/

namespace Sys2Proof.Machine

/-! ## Where the errors of the checks come from -/

theorem pfdChecked_error_cases {p : Params} {ref d r h : Nat} {st : Status} (he : pfdChecked p ref d r h = .error st) :
    st = .invalidReferenceFrequency ∨ (st = .divideByZero ∧ r = 0) := by
  unfold pfdChecked at he
  split_ifs at he with href hr hceil <;> cases he
  · exact .inl rfl
  · exact .inr ⟨rfl, hr⟩
  · exact .inl rfl

/-- PLAN never divides by zero: its reference path has r at least 1 (R118, R119). -/
theorem planCompute_error_cases {p : Params} {ref target m : Nat} {path : RefPath} {st : Status}
    (he : planCompute p ref target m path = .error st) :
    (st = .badModulus ∧ (m < 2 ∨ 4095 < m)) ∨ st = .invalidOutputFrequency ∨ st = .invalidReferenceFrequency := by
  unfold planCompute at he
  split_ifs at he with hm
  · cases he
    exact .inl ⟨rfl, hm⟩
  · cases he
    exact .inr (.inl rfl)
  · dsimp only at he
    split_ifs at he
    · cases he
      exact .inr (.inl rfl)
    · split at he
      · next st' hpfd =>
        cases he
        obtain ⟨-, -, hr, -⟩ := refPathSelect_bounds (p := p) (ref := ref) (path := path) rfl
        obtain hst | ⟨-, hzero⟩ := pfdChecked_error_cases hpfd
        · exact .inr (.inr hst)
        · exact absurd hzero (Nat.one_le_iff_ne_zero.1 hr)
      · cases he

theorem foutCompute_error_cases {p : Params} {x : Words} {ref : Nat} {st : Status} (he : foutCompute p x ref = .error st) :
    st = .invalidReferenceFrequency ∨ st = .invalidOutputFrequency ∨
      (st = .divideByZero ∧ (fieldValue x .rCounter = 0 ∨ fieldValue x .mod = 0)) := by
  rcases hpfd : pfdChecked p ref (fieldValue x .refDoubler) (fieldValue x .rCounter) (fieldValue x .rdiv2) with st' | f
  · rw [foutCompute_of_pfd_error hpfd] at he
    cases he
    obtain hst | ⟨hst, hr⟩ := pfdChecked_error_cases hpfd
    · exact .inl hst
    · exact .inr (.inr ⟨hst, .inl hr⟩)
  · rw [foutCompute_of_pfd_ok hpfd] at he
    split_ifs at he with hmod hrange <;> cases he
    · exact .inr (.inr ⟨rfl, .inr hmod⟩)
    · exact .inr (.inl rfl)

/-! ## The statuses of each instruction (R151, R153) -/

/-- The status an instruction may end in from a state, with the reason where it is a spec fault. -/
def MayEndIn (s : State) (st : Status) : Instr → Prop
  | .w0 .. | .w1 .. | .w2 .. | .w3 .. | .w4 .. | .w5 .. => st = .illegalCommand
  | .fget o m _ | .fset o m _ _ => st = .ok ∨ (st = .badDescriptor ∧ 32 < o.toNat + (m.toNat + 1))
  | .pfd _ _ _ r => st = .ok ∨ st = .invalidReferenceFrequency ∨ (st = .divideByZero ∧ r.toNat = 0)
  | .plan _ _ m _ =>
    st = .ok ∨ (st = .badModulus ∧ (m.toNat < 2 ∨ 4095 < m.toNat)) ∨ st = .invalidOutputFrequency ∨
      st = .invalidReferenceFrequency
  | .fout _ =>
    st = .ok ∨ st = .invalidReferenceFrequency ∨ st = .invalidOutputFrequency ∨
      (st = .divideByZero ∧ (fieldValue s.x .rCounter = 0 ∨ fieldValue s.x .mod = 0))
  | .wwrite w => st = .ok ∨ st = .busError ∨ st = .pinError ∨ (st = .badTag ∧ 6 ≤ w.toNat % 8)
  | .prog => st = .ok ∨ st = .busError ∨ st = .pinError
  | .rsdef | .rget .. | .rset .. | .rword .. | .rser => st = .ok

/-- The status of an operation that concludes is Ok or one of the errors its checks can give. -/
theorem conclude_status_cases {α : Type} {e : Except Status α} {g : α → Dword} {P : Status → Prop} (s : State)
    (h : ∀ st, e = .error st → P st) :
    (conclude (e.map g) s).status = .ok ∨ P (conclude (e.map g) s).status := by
  cases e with
  | ok v => exact .inl rfl
  | error st => exact .inr (h st rfl)

/-- FGET and FSET conclude with a value exactly where the descriptor fits. -/
theorem conclude_checked_status_cases (o m : BitVec 5) (v : Dword) (s : State) :
    (conclude (if descriptorFits o.toNat (widthOf m) then .ok v else .error .badDescriptor) s).status = .ok ∨
      ((conclude (if descriptorFits o.toNat (widthOf m) then .ok v else .error .badDescriptor) s).status = .badDescriptor ∧
        32 < o.toNat + (m.toNat + 1)) := by
  by_cases hfits : o.toNat + (m.toNat + 1) ≤ 32
  · rw [conclude_checked_of_fits hfits]
    exact .inl rfl
  · rw [conclude_checked_of_not_fits (not_le.1 hfits)]
    exact .inr ⟨rfl, not_le.1 hfits⟩

theorem exec_mayEndIn {i : Instr} {s t : State} (he : exec i s = .next t) : MayEndIn s t.status i := by
  cases i
  case fget | fset =>
    cases he
    exact conclude_checked_status_cases _ _ _ s
  case pfd =>
    cases he
    exact conclude_status_cases s fun _ => pfdChecked_error_cases
  case plan =>
    obtain ⟨st, herr, rfl⟩ | ⟨v, -, rfl⟩ := plan_cases he
    · exact .inr (planCompute_error_cases herr)
    · exact .inl rfl
  case fout =>
    cases he
    exact conclude_status_cases s fun _ => foutCompute_error_cases
  case wwrite w =>
    cases he
    obtain ⟨htag, hw⟩ | ⟨_, _, -, -, hw⟩ | ⟨_, e, _, -, -, hw⟩ := writeWord_cases w s <;> rw [hw]
    · exact .inr (.inr (.inr ⟨rfl, (latchOf_iff w).1.1 htag⟩))
    · exact .inl rfl
    · obtain he | he := ofTransport_eq_busError_or_pinError e
      · exact .inr (.inl he)
      · exact .inr (.inr (.inl he))
  case prog =>
    obtain hok | ⟨e, hstatus⟩ := prog_status_cases he
    · exact .inl hok
    · rw [hstatus]
      exact .inr (ofTransport_eq_busError_or_pinError e)
  all_goals
    cases he
    rfl

/-- `noFault` fails at the codes from 0x80 on only, which are the five spec faults. -/
theorem isFault_of_not_noFault {t : State} (h : t.noFault = false) : t.status.isFault = true := by
  simpa [State.noFault] using h

/-! ## The obligations -/

/-- Settles O44: the codes, and the bound of `isFault`. -/
theorem statusCodes : Obligations.StatusCodes :=
  ⟨rfl, rfl, rfl, rfl, rfl, rfl, rfl, rfl, rfl, rfl, fun _ => decide_eq_true_iff⟩

/-- Settles O45: the last column of R151 holds every status an instruction may end in. -/
theorem errorsComeFromTheirOperations : Obligations.ErrorsComeFromTheirOperations := by
  intro i s t he
  have hmay := exec_mayEndIn he
  generalize t.status = st at hmay
  cases i
  case w0 | w1 | w2 | w3 | w4 | w5 =>
    obtain rfl := hmay
    rfl
  case fget | fset =>
    obtain rfl | ⟨rfl, -⟩ := hmay <;> trivial
  case pfd =>
    obtain rfl | rfl | ⟨rfl, -⟩ := hmay <;> trivial
  case plan =>
    obtain rfl | ⟨rfl, -⟩ | rfl | rfl := hmay <;> trivial
  case fout =>
    obtain rfl | rfl | rfl | ⟨rfl, -⟩ := hmay <;> trivial
  case wwrite =>
    obtain rfl | rfl | rfl | ⟨rfl, -⟩ := hmay <;> trivial
  case prog =>
    obtain rfl | rfl | rfl := hmay <;> trivial
  all_goals
    obtain rfl := hmay
    trivial

/-- Settles O46: of the statuses an instruction may end in, the spec faults come with their reason. -/
theorem specFaultsOnlyWhereListed : Obligations.SpecFaultsOnlyWhereListed := by
  intro i s t he hfault
  have hmay := exec_mayEndIn he
  have hcode := isFault_of_not_noFault hfault
  generalize t.status = st at hmay hcode
  cases i
  case w0 | w1 | w2 | w3 | w4 | w5 => exact ⟨hmay, rfl⟩
  case fget | fset =>
    obtain rfl | hbad := hmay
    exacts [(nomatch hcode), hbad]
  case pfd =>
    obtain rfl | rfl | hzero := hmay
    exacts [(nomatch hcode), (nomatch hcode), hzero]
  case plan =>
    obtain rfl | hbad | rfl | rfl := hmay
    exacts [(nomatch hcode), hbad, (nomatch hcode), (nomatch hcode)]
  case fout =>
    obtain rfl | rfl | rfl | hzero := hmay
    exacts [(nomatch hcode), (nomatch hcode), (nomatch hcode), hzero]
  case wwrite =>
    obtain rfl | rfl | rfl | hbad := hmay
    exacts [(nomatch hcode), (nomatch hcode), (nomatch hcode), hbad]
  case prog =>
    obtain rfl | rfl | rfl := hmay
    exacts [(nomatch hcode), (nomatch hcode), (nomatch hcode)]
  all_goals
    obtain rfl := hmay
    exact nomatch hcode

end Sys2Proof.Machine
end
